-- ==== Sys2Proof/Word.lean ====
section
/-! DEFINITION. The sizes of value the spec uses (00 R9): 32-bit host words, bytes, one-bit levels. -/

namespace Sys2Proof

/-- A host register word: every host access is a whole 32-bit word (10 R17). -/
abbrev Word := BitVec 32

/-- A byte: 8 bits (00 R9). -/
abbrev Byte := BitVec 8

/-- A level of a line: one bit, `false` is 0 (low) and `true` is 1 (high) (00 R9). -/
abbrev Level := Bool

/-- A number of microseconds as DELAY holds it: 16 bits (10 R24). -/
abbrev Micros := BitVec 16

end Sys2Proof
end

