-- ==== Sys2Proof/Syntax.lean ====
section
/-! DEFINITION. The commands of the opcode map (30 R56), and the statements of a command program
(30 R61, R62). -/

namespace Sys2Proof

/-- A command: one constructor per row of the opcode map (30 R56). ADDR is any byte (20 R35); LEN is
the 8-bit field, of which 128 to 255 decode and are rejected when validated (30 R59). -/
inductive Instr where
  /-- INIT, the source's `init()` (43 R88). -/
  | init
  /-- WRITE, the source's `write(address, buffer, length)` (43 R90). -/
  | write (addr len : Byte)
  /-- READ, the source's `read(address, buffer, length)` (43 R91). -/
  | read (addr len : Byte)
  /-- LINESTATE, the source's `lineState()` (43 R92). -/
  | linestate
deriving DecidableEq, Repr

/-- The statements of a command program, with the numbers the programmer wrote (30 R61, R62). -/
inductive Stmt where
  /-- `INIT` -/
  | init
  /-- `WRITE addr, n`: the host has already filled the buffer. -/
  | write (addr n : Nat)
  /-- `WRITE addr, (b0, ..., bn-1)` with braces: buffer index 0 first. -/
  | writeBytes (addr : Nat) (bytes : List Nat)
  /-- `READ addr, n` -/
  | read (addr n : Nat)
  /-- `LINESTATE` -/
  | linestate
  /-- `DELAY n`: writes n to register DELAY. -/
  | delay (n : Nat)
  /-- `WAITIDLE`: reads STATUS until BUSY = 0. -/
  | waitIdle
  /-- `FILL (b0, ..., bk-1)` with braces: writes the bytes at buffer indices 0 to k-1. -/
  | fill (bytes : List Nat)
  /-- `CHECK mask, value`: stops the program unless `(STATUS & mask) = value`. -/
  | check (mask value : Nat)
  /-- `.word w`: writes w to CMD as it is. -/
  | word (w : Nat)
deriving DecidableEq, Repr

end Sys2Proof
end

