-- ==== Sys2Proof/Decode.lean ====
section
/-! DEFINITION. The decoder: total on the 2^32 words, one row of the opcode map after another, the
rest reserved and named (30 R52 to R60). Then the encoder. -/

namespace Sys2Proof

/-- Why a word is reserved: the cases (a), (b), (c) of 30 R57. -/
inductive Reserved where
  /-- (a) OP = 0b11. -/
  | op
  /-- (b) RSV0 or RSV1 is not 0. -/
  | field
  /-- (c) INIT or LINESTATE with MODE, ADDR or LEN not 0. -/
  | operand
deriving DecidableEq, Repr

/-- OP, bits 1:0 (30 R52). -/
def opField (w : Word) : BitVec 2 := w.extractLsb' 0 2
/-- MODE, bit 2 (30 R52). -/
def modeField (w : Word) : BitVec 1 := w.extractLsb' 2 1
/-- RSV0, bits 7:3 (30 R52). -/
def rsv0Field (w : Word) : BitVec 5 := w.extractLsb' 3 5
/-- ADDR, bits 15:8 (30 R52). -/
def addrField (w : Word) : Byte := w.extractLsb' 8 8
/-- LEN, bits 23:16 (30 R52). -/
def lenField (w : Word) : Byte := w.extractLsb' 16 8
/-- RSV1, bits 31:24 (30 R52). -/
def rsv1Field (w : Word) : Byte := w.extractLsb' 24 8

/-- `(w & mask) = match` (30 R56). -/
def matchesRow (mask pattern w : Word) : Bool := w &&& mask == pattern

/-- Which case of 30 R57 a word that matches no row falls under. -/
def reservedForm (w : Word) : Reserved :=
  if opField w = 3#2 then .op
  else if rsv0Field w ≠ 0 ∨ rsv1Field w ≠ 0 then .field
  else .operand

/-- The command a CMD word selects, or why it is reserved: the first matching row of 30 R56. -/
def decode (w : Word) : Except Reserved Instr :=
  if matchesRow 0xFFFFFFFF#32 0x00000000#32 w then .ok .init
  else if matchesRow 0xFF0000FF#32 0x00000001#32 w then .ok (.write (addrField w) (lenField w))
  else if matchesRow 0xFF0000FF#32 0x00000005#32 w then .ok (.read (addrField w) (lenField w))
  else if matchesRow 0xFFFFFFFF#32 0x00000002#32 w then .ok .linestate
  else .error (reservedForm w)

/-- The instruction the decoder reads from the low `nbits` bits of `w`, the bits above them 0: one
32-bit word, handed over whole, so no byte order arises (20 R39). -/
def decodeTableWord (nbits w : Nat) : Option Instr :=
  if w % 2 ^ nbits < 2 ^ 32 then (decode (BitVec.ofNat 32 (w % 2 ^ nbits))).toOption else none

/-- `(LEN << 16) | (ADDR << 8) | (MODE << 2) | OP` (30 R56). -/
def packWord (op : BitVec 2) (mode : BitVec 1) (addr len : Byte) : Word :=
  len.setWidth 32 <<< 16 ||| addr.setWidth 32 <<< 8 ||| mode.setWidth 32 <<< 2 ||| op.setWidth 32

/-- The CMD word of a command (30 R56, R61). -/
def encode : Instr → Word
  | .init => packWord 0b00#2 0#1 0#8 0#8
  | .write addr len => packWord 0b01#2 0#1 addr len
  | .read addr len => packWord 0b01#2 1#1 addr len
  | .linestate => packWord 0b10#2 0#1 0#8 0#8

end Sys2Proof
end

