-- ==== Sys2Proof/Config.lean ====
section
/-! DEFINITION. The implementation parameters of 00 R8, and the free values: constants with no body,
of which nothing can be proved but that they exist. -/

namespace Sys2Proof.Config

/-- `LEN_MAX`: the largest payload length (00 R8; 30 R59 keeps the bound at 127). -/
def lenMax : Nat := 127

/-- `DELAY_RESET`: DELAY after reset, 100 microseconds (00 R8, 10 R24). -/
def delayReset : Micros := 100#16

/-- `TIMEBASE`, OPEN with the constraint `any` (00 R8, 60 R103, 92 D10): how many 1 microsecond ticks the
time base has made once n periods of the block's clock have passed. Any function: a whole or fractional ratio,
a clock below 1 MHz, an uneven division. No rule reads it (92 D10; log 10). -/
opaque timebase : Nat → Nat

/-- `T_GAP`, OPEN, at least 0 (00 R8, 40 R67): least microseconds between two events with no wait between
them, any real number that is not negative. -/
opaque tGap : NNReal

/-- `T_WAIT_SLACK`, OPEN, at least 0 (00 R8, 40 R66): microseconds by which a wait may be longer than DELAY,
any real number that is not negative. -/
opaque tWaitSlack : NNReal

/-- `DI_PULLUP_STRENGTH`, OPEN (00 R8): an electrical property that no rule reads (93 I9). -/
opaque diPullupStrength : ℝ

/-- FREE VALUE. The level the n-th sample of DI shows where the environment's list has supplied none:
a draw that no rule constrains (00 R12, 40 R65; log 2). -/
opaque diLevel : Nat → Level

/-- FREE VALUE. The byte at a host address that nothing has written: the caller's own, unknown to the
block (20 R31; log 3). -/
opaque bufferByte : Nat → Byte

/-- FREE VALUE. Whether the n-th host read of the buffer made during a READ still sees the byte from
before that READ (93 I16: any value among the old and new bytes; log 11). -/
opaque seesOldByte : Nat → Bool

end Sys2Proof.Config
end

