-- ==== Sys2Proof/Machine/State.lean ====
section
/-! DEFINITION. The machine's state as plain data: lines, registers, hidden state (10), the host's memory
with the transfer buffers (20 R31), the trace (00 R11), and what the outside world will do next. -/

namespace Sys2Proof.Machine

/-- The four lines (10 R13). -/
inductive Line where
  | DO | CL | DI | CE
deriving DecidableEq, Repr

/-- The lines the block drives; DI has no output latch (10 R14). -/
inductive OutLine where
  | DO | CL | CE
deriving DecidableEq, Repr

/-- A line's direction (10 R14). -/
inductive Dir where
  | input | inputPullup | output
deriving DecidableEq, Repr

/-- The directions of the four lines and the output latches of three (10 R14). -/
structure Lines where
  dirDO : Dir
  dirCL : Dir
  dirDI : Dir
  dirCE : Dir
  outDO : Level
  outCL : Level
  outCE : Level
deriving DecidableEq, Repr

/-- The events of the trace (00 R11). -/
inductive Event where
  /-- `Dir(l, m)` -/
  | dir (l : Line) (m : Dir)
  /-- `Lvl(l, v)` -/
  | lvl (l : OutLine) (v : Level)
  /-- `Wait(d)` -/
  | wait (d : Micros)
  /-- `Smp(l, v)` -/
  | smp (l : Line) (v : Level)
  /-- `BufRd(i, v)` -/
  | bufRd (i : Nat) (v : Byte)
  /-- `BufWr(i, v)` -/
  | bufWr (i : Nat) (v : Byte)
deriving DecidableEq, Repr

/-- The result codes of STATUS.ERR that are ever produced (10 R23). -/
inductive ErrCode where
  /-- E_NONE, 0: the command was accepted. -/
  | none
  /-- E_ILLEGAL, 1: the command word is reserved. -/
  | illegal
  /-- E_LEN, 2: WRITE or READ with LEN above 127. -/
  | len
  /-- E_NOINIT, 3: WRITE or READ while INIT_DONE = 0. -/
  | noInit
deriving DecidableEq, Repr

/-- OP of a latched command (30 R53). -/
inductive Op where
  | init | xfer | linestate
deriving DecidableEq, Repr

/-- The transfer mode (30 R52). -/
inductive Mode where
  | send | receive
deriving DecidableEq, Repr

/-- The transfer buffer the host binds to a command when it issues it: `size` bytes of the host's memory,
index i at address `base + i` (20 R31, 60 R108; log 3). DESIGN CHOICE (log 3): `size` is any number, one above
the 127 of 20 R31 too, and all `size` bytes are the buffer that the host must not write while BUSY = 1. -/
structure Binding where
  base : Nat
  size : Nat
deriving DecidableEq, Repr

/-- The latched command: OP, MODE, ADDR and LEN of the word, DELAY at acceptance, and the buffer bound to
it (10 R26, 20 R31, 30 R54). -/
structure Latched where
  op : Op
  mode : Mode
  addr : Byte
  len : Byte
  delay : Micros
  buf : Binding
deriving DecidableEq, Repr

/-- The hidden state: Idle, or Busy with the latched command, the position in its event sequence and
the byte being shifted (10 R26; log 8). -/
inductive Phase where
  | idle
  | busy (c : Latched) (k : Nat) (shift : Byte)
deriving DecidableEq, Repr

/-- A host write made while BUSY = 1, held until it is 0; a command is held with the buffer bound to it
(10 R20, R27; 20 R31). -/
inductive HostWrite where
  | cmd (w : Word) (buf : Binding)
  | delay (w : Word)
deriving DecidableEq, Repr

/-- What the outside world may do next (60 R108; log 4). -/
inductive HostAction where
  /-- Nothing: the block moves. -/
  | tick
  /-- Read host register n with an access of that many bits (10 R17). -/
  | readReg (n width : Nat)
  /-- Write host register n with an access of that many bits (10 R17). `buf` is the buffer bound to the
  command that a write of CMD issues (20 R31); a write of another register has none and ignores it. -/
  | writeReg (n width : Nat) (w : Word) (buf : Binding)
  /-- Read the byte of the host's memory at an address, in a buffer or not (20 R33). -/
  | readBuffer (a : Nat)
  /-- Write the byte of the host's memory at an address, in a buffer or not (20 R33, 30 R62 FILL). -/
  | writeBuffer (a : Nat) (v : Byte)
  /-- WAITIDLE: read STATUS until BUSY = 0 (30 R62). -/
  | waitIdle
  /-- CHECK: read STATUS and stop unless `(STATUS & mask) = value` (30 R62). -/
  | check (mask value : Word)
  /-- Something other than the block drives a line (20 R50). -/
  | driveLine (l : OutLine) (v : Level)
  /-- Assert and release reset (70 R109). -/
  | assertReset
deriving DecidableEq, Repr

/-- The host's memory, in which the transfer buffers lie: (address, byte) pairs, addresses strictly rising
(20 R31). An address that is not listed holds no known value (log 3). -/
abbrev Memory := List Host.Cell

/-- The faults. The block itself has none (60 R101). -/
inductive Fault where
  /-- A host program's CHECK found another STATUS and stopped the program (30 R62). Raised by the host
  action `check` only. Safe: the spec itself stops there. -/
  | checkFailed (mask value found : Word)
deriving DecidableEq, Repr

/-- The refusals: runs the spec gives no meaning. -/
inductive Refusal where
  /-- An instruction without a meaning yet, rejected by name in `exec`. Safe. -/
  | notModelled (mnemonic : String)
  /-- A host access to a register number other than 0, 1, 2 (10 R17, 93 I15). Raised by the host's
  register accesses. Safe: the spec says the model refuses it. -/
  | noSuchRegister (n : Nat)
  /-- A host access that is not 32 bits wide (10 R17, 93 I15). Raised by the host's register accesses.
  Safe: the spec says the model refuses it. -/
  | notAWord (width : Nat)
  /-- A host write, while BUSY = 1, of the buffer bound to the running command (20 R33, 93 I16). Raised by
  `writeBuffer`. Safe: the spec says the model refuses it. -/
  | bufferBusy (a : Nat)
  /-- Something other than the block drives DO, CL or CE (20 R50, 93 I17). Raised by `driveLine`. Safe:
  the spec says the model refuses it. -/
  | lineDrivenOutside (l : OutLine)
  /-- A second host write while one is held: the host is stalled and can make none (10 R27, 43 R85;
  log 13). Raised by `holdWrite`; no step reaches it. Safe. -/
  | hostStalled
  /-- A Busy position past the end of the command's events (log 12). Raised by `advance`; no state that
  meets the invariant has one. Safe. -/
  | positionPastEnd
deriving DecidableEq, Repr

/-- The machine's state (INVENTORY.md, State). -/
structure State where
  /-- The lines (10 R14). -/
  lines : Lines
  /-- STATUS.INIT_DONE (10 R21). -/
  initDone : Bool
  /-- STATUS.LINE (10 R22). -/
  line : Level
  /-- STATUS.ERR (10 R23). -/
  err : ErrCode
  /-- DELAY.DELAY_US (10 R24). -/
  delay : Micros
  /-- The hidden state; STATUS.BUSY is read off it (10 R20, R26). -/
  phase : Phase
  /-- The one held host write (10 R20, R27). -/
  held : Option HostWrite
  /-- The host's memory, with the buffers it binds to commands (20 R31). -/
  memory : Memory
  /-- MODEL: the events so far, oldest first (00 R11; log 9). -/
  trace : List Event
  /-- MODEL: what the outside world does next, soonest first (log 4). -/
  host : List HostAction
  /-- MODEL: DI levels supplied and not yet sampled, soonest first (log 2). -/
  diInput : List Level
  /-- MODEL: how many samples found no supplied level (log 2). -/
  draws : Nat
  /-- MODEL: what the host's last read returned (log 14). -/
  answer : Option Word
  /-- MODEL: the buffer bound to the last command that was decoded, the argument `exec` takes with its
  command (20 R31; log 3). -/
  binding : Binding
  /-- MODEL: the host's memory as the last accepted command found it, the old bytes of 93 I16 (log 11). -/
  prior : Memory
  /-- MODEL: how many host reads were made of bytes that a READ was receiving (log 11). -/
  peeks : Nat
deriving DecidableEq, Repr

/-- The lines after reset: undriven inputs without pull-up, latches 0 (10 R28). -/
def Lines.reset : Lines where
  dirDO := .input
  dirCL := .input
  dirDI := .input
  dirCE := .input
  outDO := false
  outCL := false
  outCE := false

/-- The machine right after reset (10 R28), with nothing queued outside it (log 1). -/
def State.reset : State where
  lines := Lines.reset
  initDone := false
  line := false
  err := .none
  delay := Config.delayReset
  phase := .idle
  held := none
  memory := []
  trace := []
  host := []
  diInput := []
  draws := 0
  answer := none
  binding := ⟨0, 127⟩
  prior := []
  peeks := 0

end Sys2Proof.Machine
end

