-- ==== Sys2Proof/Machine/Flags.lean ====
section
/-! DEFINITION. STATUS and DELAY as words, the fields of STATUS (10 R19 to R25), and which addresses a
running command owns (20 R33). -/

namespace Sys2Proof.Machine

/-- STATUS.BUSY: 1 while an accepted command is running (10 R20). -/
def State.busy (s : State) : Bool :=
  match s.phase with
  | .idle => false
  | .busy _ _ _ => true

/-- Does an address lie in the buffer bound to a command? A buffer shorter than LEN breaks the host's duty
(60 R108); the bytes the command reaches count as its buffer all the same. -/
def Latched.owns (c : Latched) (a : Nat) : Bool :=
  decide (c.buf.base ≤ a) && decide (a < c.buf.base + max c.buf.size c.len.toNat)

/-- Is the command a READ that fills the byte at an address (43 R91)? -/
def Latched.receives (c : Latched) (a : Nat) : Bool :=
  decide (c.op = .xfer) && decide (c.mode = .receive) && decide (c.buf.base ≤ a)
    && decide (a < c.buf.base + c.len.toNat)

/-- Does an address lie in the running command's buffer (20 R33)? -/
def State.owned (s : State) (a : Nat) : Bool :=
  match s.phase with
  | .idle => false
  | .busy c _ _ => c.owns a

/-- Is a READ running that fills the byte at an address? -/
def State.receiving (s : State) (a : Nat) : Bool :=
  match s.phase with
  | .idle => false
  | .busy c _ _ => c.receives a

/-- The number of a result code (10 R23). -/
def ErrCode.code : ErrCode → BitVec 4
  | .none => 0
  | .illegal => 1
  | .len => 2
  | .noInit => 3

/-- STATUS: BUSY at bit 0, INIT_DONE at 1, LINE at 2, ERR at 7:4, every other bit 0 (10 R19). -/
def State.status (s : State) : Word :=
  (0 : BitVec 24) ++ s.err.code ++ (0 : BitVec 1)
    ++ BitVec.ofBool s.line ++ BitVec.ofBool s.initDone ++ BitVec.ofBool s.busy

/-- DELAY as the host reads it: bits 31:16 read 0 (10 R24). -/
def State.delayWord (s : State) : Word := s.delay.setWidth 32

/-- DELAY_US of a word written to DELAY: bits 31:16 are ignored (10 R24). -/
def delayOfWord (w : Word) : Micros := w.extractLsb' 0 16

end Sys2Proof.Machine
end

