-- ==== Sys2Proof/WellFormed.lean ====
section
/-! DEFINITION. Which commands lie in the documented argument range, and which statements the
assembler takes. The field widths (8-bit ADDR, 8-bit LEN) are in `Instr`'s types. -/

namespace Sys2Proof

/-- The payload length of a command: LEN of a transfer, 0 of the others (30 R52, R54). -/
def Instr.length : Instr → Nat
  | .init => 0
  | .write _ len => len.toNat
  | .read _ len => len.toNat
  | .linestate => 0

/-- A command is well formed when its LEN is legal, 0 to 127 (30 R54, R59). One that is not still
decodes, and the block rejects it with E_LEN (60 R96). -/
def Instr.wellFormed (i : Instr) : Bool := i.length ≤ Config.lenMax

/-- Every byte of a list fits 8 bits. -/
def bytesFit (bytes : List Nat) : Bool := bytes.all (· < 2 ^ 8)

/-- What the assembler takes: addr and n fit their 8-bit fields, a brace form has at most 127 bytes,
each byte fits 8 bits, each register value fits 32 bits (30 R61, R62). `WRITE addr, n` with n from 128
to 255 is taken, and the block rejects it. -/
def Stmt.wellFormed : Stmt → Bool
  | .init | .linestate | .waitIdle => true
  | .write addr n | .read addr n => addr < 2 ^ 8 && n < 2 ^ 8
  | .writeBytes addr bytes => addr < 2 ^ 8 && bytes.length ≤ Config.lenMax && bytesFit bytes
  | .fill bytes => bytes.length ≤ Config.lenMax && bytesFit bytes
  | .delay n => n < 2 ^ 32
  | .check mask value => mask < 2 ^ 32 && value < 2 ^ 32
  | .word w => w < 2 ^ 32

end Sys2Proof
end

