-- ==== Sys2Proof/Machine/Operands.lean ====
section
/-! DEFINITION. What a command latches (30 R54), how it is validated (43 R86), and the one arithmetic
on an operand, the nibble swap (42 R75). -/

namespace Sys2Proof.Machine

/-- The address byte sent: `a[3:0] ++ a[7:4]` (42 R75). -/
def nibbleSwap (a : Byte) : Byte := a.extractLsb' 0 4 ++ a.extractLsb' 4 4

/-- `r[i] <- v`: r with bit i set to the level v (41 R71). -/
def setBit (r : Byte) (i : Nat) (v : Level) : Byte :=
  if v then r ||| (1#8 <<< i) else r &&& ~~~(1#8 <<< i)

/-- The operands latched on acceptance, with DELAY at that moment and the buffer bound to the command
(20 R31, 30 R54). -/
def latch (i : Instr) (d : Micros) (buf : Binding) : Latched :=
  match i with
  | .init => ⟨.init, .send, 0, 0, d, buf⟩
  | .write addr len => ⟨.xfer, .send, addr, len, d, buf⟩
  | .read addr len => ⟨.xfer, .receive, addr, len, d, buf⟩
  | .linestate => ⟨.linestate, .send, 0, 0, d, buf⟩

/-- Is the command a transaction, WRITE or READ? -/
def isTransfer : Instr → Bool
  | .init | .linestate => false
  | .write _ _ | .read _ _ => true

/-- The checks on a decoded command, in their order; `ErrCode.none` accepts (43 R86). The first check
of 43 R86, a reserved word, is made where the word is decoded. -/
def validate (i : Instr) (s : State) : ErrCode :=
  if isTransfer i && !i.wellFormed then .len
  else if isTransfer i && !s.initDone then .noInit
  else .none

end Sys2Proof.Machine
end

