-- ==== Sys2Proof/Machine/Ops.lean ====
section
/-! DEFINITION. The named operations: buffer bytes (20 R31), lines (40 R63 to R66), and how a command
is held, rejected, accepted and completed (43 R85 to R87, 60 R95). The block has no exception entry and
no return (60 R101): rejection is all it has in their place. -/

namespace Sys2Proof.Machine

/-! ### The host's memory and the buffers in it -/

/-- The byte listed at an address, if one is. -/
def Memory.lookup : Memory → Nat → Option Byte
  | [], _ => none
  | (a, v) :: m, i => if a = i then some v else Memory.lookup m i

/-- The list with byte v at address i, in rising order. -/
def Memory.store : Memory → Nat → Byte → Memory
  | [], i, v => [(i, v)]
  | (a, b) :: m, i, v =>
    if i < a then (i, v) :: (a, b) :: m
    else if i = a then (i, v) :: m
    else (a, b) :: Memory.store m i v

/-- Every listed address is at least b, and they rise strictly. -/
def Memory.risesFrom (b : Nat) : Memory → Bool
  | [] => true
  | (a, _) :: m => b ≤ a && Memory.risesFrom (a + 1) m

/-- The canonical form: addresses strictly rising. An unlisted address has no listed value to repeat, so
no entry can equal what an unlisted one reads as. -/
def Memory.wf (m : Memory) : Bool := m.risesFrom 0

/-- What the memory holds at an address: the byte last written there, and where nothing was written a
free byte (20 R31; log 3). -/
def Memory.byteAt (m : Memory) (i : Nat) : Byte := (m.lookup i).getD (Config.bufferByte i)

/-- The bytes of a bound buffer by their index (20 R31). -/
def Memory.bound (m : Memory) (buf : Binding) (i : Nat) : Byte := m.byteAt (buf.base + i)

/-! ### The lines -/

/-- `OUT[l] <- v` (40 R63). -/
def Lines.setOut (ln : Lines) (l : OutLine) (v : Level) : Lines :=
  match l with
  | .DO => { ln with outDO := v }
  | .CL => { ln with outCL := v }
  | .CE => { ln with outCE := v }

/-- `DIR[l] <- m` (40 R64). -/
def Lines.setDir (ln : Lines) (l : Line) (m : Dir) : Lines :=
  match l with
  | .DO => { ln with dirDO := m }
  | .CL => { ln with dirCL := m }
  | .DI => { ln with dirDI := m }
  | .CE => { ln with dirCE := m }

/-- `OUT[l]` (10 R14). -/
def Lines.out (ln : Lines) : OutLine → Level
  | .DO => ln.outDO
  | .CL => ln.outCL
  | .CE => ln.outCE

/-- `DIR[l]` of a line the block drives (10 R14). -/
def Lines.dirOf (ln : Lines) : OutLine → Dir
  | .DO => ln.dirDO
  | .CL => ln.dirCL
  | .CE => ln.dirCE

/-- The pin level: `OUT[l]` while the line is an output; otherwise outside the model (10 R15). -/
def Lines.pin (ln : Lines) (l : OutLine) : Option Level :=
  if ln.dirOf l = .output then some (ln.out l) else none

/-! ### The primitives: one event each (00 R10, R11) -/

/-- The trace with one more event (00 R11). -/
def emit (e : Event) (s : State) : State := { s with trace := s.trace ++ [e] }

/-- `Drive(l, v)` (40 R63). -/
def drive (l : OutLine) (v : Level) (s : State) : State :=
  emit (.lvl l v) { s with lines := s.lines.setOut l v }

/-- `SetDir(l, m)` (40 R64). -/
def setDir (l : Line) (m : Dir) (s : State) : State :=
  emit (.dir l m) { s with lines := s.lines.setDir l m }

/-- `Wait()` with the running command's latched delay: an event that changes nothing (40 R66). -/
def waitFor (d : Micros) (s : State) : State := emit (.wait d) s

/-- The level DI shows next: the level supplied, or a free one (00 R12; log 2). -/
def nextLevel (s : State) : Level :=
  match s.diInput with
  | v :: _ => v
  | [] => Config.diLevel s.draws

/-- The state once that level has been taken. -/
def takeLevel (s : State) : State :=
  match s.diInput with
  | _ :: rest => { s with diInput := rest }
  | [] => { s with draws := s.draws + 1 }

/-- `Sample(DI)`: the level drawn, and the state after it (40 R65). -/
def sample (s : State) : Level × State := (nextLevel s, emit (.smp .DI (nextLevel s)) (takeLevel s))

/-- `MemRead(i, 1)` on the buffer bound to the running command (20 R31). -/
def memRead (buf : Binding) (i : Nat) (s : State) : Byte × State :=
  (s.memory.bound buf i, emit (.bufRd i (s.memory.bound buf i)) s)

/-- `MemWrite(i, 1, v)` on the buffer bound to the running command (20 R31). -/
def memWrite (buf : Binding) (i : Nat) (v : Byte) (s : State) : State :=
  emit (.bufWr i v) { s with memory := s.memory.store (buf.base + i) v }

/-! ### Issue, rejection and completion -/

/-- `raise Reject(code)`: STATUS.ERR takes the code and nothing else changes (60 R95, R99). -/
def reject (e : ErrCode) (s : State) : State := { s with err := e }

/-- Accept a command: latch its operands, DELAY and its buffer, ERR = E_NONE, BUSY = 1, at the first event
(43 R85). The byte to shift first is the swapped address (42 R74; log 8); the memory as it stands is
kept for host reads during a READ (log 11). -/
def accept (i : Instr) (s : State) : State :=
  { s with
    err := .none
    phase := .busy (latch i s.delay s.binding) 0 (nibbleSwap (latch i s.delay s.binding).addr)
    prior := s.memory }

/-- Hold a host write made while BUSY = 1 (10 R20, 43 R85). The queue holds one (10 R27). -/
def holdWrite (hw : HostWrite) (s : State) : Host.Outcome State Fault Refusal :=
  match s.held with
  | none => .next { s with held := some hw }
  | some _ => .refused .hostStalled

/-- Issue a command, its buffer in `binding`: hold both while BUSY = 1; else validate, then reject or accept (43 R85, R86). -/
def issue (i : Instr) (s : State) : Host.Outcome State Fault Refusal :=
  if s.busy then holdWrite (.cmd (encode i) s.binding) s
  else
    match validate i s with
    | .none => .next (accept i s)
    | e => .next (reject e s)

/-- The step of a command's last event: BUSY = 0 and Idle; INIT sets INIT_DONE (43 R87, R88). -/
def complete (c : Latched) (s : State) : State :=
  { s with phase := .idle, initDone := s.initDone || decide (c.op = .init) }

/-- Reset: every piece of the block's state at its reset value, a held write dropped. The memory is the
host's and the trace is kept (70 R109, R110); what the outside world does next is not the block's. -/
def resetBlock (s : State) : State :=
  { s with
    lines := Lines.reset
    initDone := false
    line := false
    err := .none
    delay := Config.delayReset
    phase := .idle
    held := none }

end Sys2Proof.Machine
end

