-- ==== Sys2Proof/Machine/System.lean ====
section
/-! DEFINITION. The system commands, INIT and LINESTATE (43 R94). Issuing one is one step; its body
then runs one event per step (43 R85; `body` in Sequence.lean). -/

namespace Sys2Proof.Machine

/-- INIT: accepted whatever INIT_DONE is (43 R86, R88); its body is `initOps`. -/
def execInit (s : State) : Host.Outcome State Fault Refusal := issue .init s

/-- LINESTATE: accepted whatever INIT_DONE is (43 R86, R92); its body is `linestateOps`. -/
def execLinestate (s : State) : Host.Outcome State Fault Refusal := issue .linestate s

end Sys2Proof.Machine
end

