-- ==== Sys2Proof/Machine/Transfer.lean ====
section
/-! DEFINITION. The transactions, WRITE and READ (43 R90, R91). Issuing one is one step; its body then
runs one event per step (43 R85; `body` in Sequence.lean). -/

namespace Sys2Proof.Machine

/-- WRITE: rejected with E_LEN or E_NOINIT, else TRANSACT(ADDR, LEN, Send) runs (43 R86, R90). -/
def execWrite (addr len : Byte) (s : State) : Host.Outcome State Fault Refusal :=
  issue (.write addr len) s

/-- READ: rejected with E_LEN or E_NOINIT, else TRANSACT(ADDR, LEN, Receive) runs (43 R86, R91). -/
def execRead (addr len : Byte) (s : State) : Host.Outcome State Fault Refusal :=
  issue (.read addr len) s

end Sys2Proof.Machine
end

