-- ==== Sys2Proof/Machine/Dispatch.lean ====
section
/-! DEFINITION. One arm per command. -/

namespace Sys2Proof.Machine

def exec (i : Instr) (s : State) : Host.Outcome State Fault Refusal :=
  match i with
  | .init => Sys2Proof.Machine.execInit s
  | .write addr len => Sys2Proof.Machine.execWrite addr len s
  | .read addr len => Sys2Proof.Machine.execRead addr len s
  | .linestate => Sys2Proof.Machine.execLinestate s

end Sys2Proof.Machine
end

