-- ==== Sys2Proof/Machine/Sequence.lean ====
section
/-! DEFINITION. The event sequence of each command (41 R70, R71; 42 R74; 43 R88, R92) as a list of
primitives, and the block's one step along it (10 R26). -/

namespace Sys2Proof.Machine

/-- One primitive of a command's body; each makes exactly one event (00 R10). -/
inductive MicroOp where
  /-- `SetDir(l, m)` -/
  | setDir (l : Line) (m : Dir)
  /-- `Drive(l, v)` -/
  | drive (l : OutLine) (v : Level)
  /-- `Drive(DO, v[i])`, v the byte being shifted. -/
  | shiftOut (i : Nat)
  /-- `Wait()` -/
  | wait
  /-- `r[i] <- Sample(DI)`, r the byte being shifted; the first, i = 7, starts from r = 0. -/
  | shiftIn (i : Nat)
  /-- `v <- MemRead(i, 1)`, v the byte to shift next. -/
  | bufRead (i : Nat)
  /-- `MemWrite(i, 1, r)`, r the byte just received. -/
  | bufWrite (i : Nat)
  /-- `LINE <- Sample(DI)` -/
  | sampleLine
deriving DecidableEq, Repr

/-- Bit i of SEND_BYTE (41 R70). -/
def sendBitOps (i : Nat) : List MicroOp :=
  [.shiftOut i, .drive .CL true, .wait, .drive .CL false, .wait]

/-- SEND_BYTE of the byte being shifted: bits 0 to 7 (41 R70). -/
def sendByteOps : List MicroOp := [0, 1, 2, 3, 4, 5, 6, 7].flatMap sendBitOps

/-- Bit i of RECEIVE_BYTE (41 R71). -/
def receiveBitOps (i : Nat) : List MicroOp :=
  [.drive .CL true, .wait, .shiftIn i, .drive .CL false, .wait]

/-- RECEIVE_BYTE: bits 7 down to 0 (41 R71). -/
def receiveByteOps : List MicroOp := [7, 6, 5, 4, 3, 2, 1, 0].flatMap receiveBitOps

/-- The Send loop over the last n indices left: n-1 down to 0 (42 R74, R77). -/
def sendPayloadOps : Nat → List MicroOp
  | 0 => []
  | n + 1 => .bufRead n :: (sendByteOps ++ sendPayloadOps n)

/-- The Receive loop over indices 0 to n-1 (42 R74, R78). -/
def receivePayloadOps : Nat → List MicroOp
  | 0 => []
  | n + 1 => receivePayloadOps n ++ (receiveByteOps ++ [.bufWrite n])

/-- Step 3 of TRANSACT: the payload; a Send ends with DO driven low (42 R74). -/
def payloadOps (n : Nat) : Mode → List MicroOp
  | .send => sendPayloadOps n ++ [.drive .DO false]
  | .receive => receivePayloadOps n

/-- TRANSACT: address byte, open the CE window, payload, close it (42 R74). -/
def transactOps (n : Nat) (m : Mode) : List MicroOp :=
  sendByteOps ++ [.drive .CL false, .drive .CE true, .wait] ++ payloadOps n m
    ++ [.drive .CE false, .wait]

/-- INIT (43 R88). -/
def initOps : List MicroOp :=
  [.setDir .DO .output, .setDir .CL .output, .setDir .CE .output, .setDir .DI .inputPullup,
    .drive .DO false, .drive .CL false, .drive .CE true, .wait, .drive .CE false, .wait]

/-- LINESTATE (43 R92). -/
def linestateOps : List MicroOp := [.sampleLine]

/-- The body of a latched command (43 R88 to R92). -/
def body (c : Latched) : List MicroOp :=
  match c.op with
  | .init => initOps
  | .xfer => transactOps c.len.toNat c.mode
  | .linestate => linestateOps

/-- Do one primitive of a latched command, with the byte being shifted; answer the state and that byte. -/
def perform (op : MicroOp) (c : Latched) (shift : Byte) (s : State) : State × Byte :=
  match op with
  | .setDir l m => (setDir l m s, shift)
  | .drive l v => (drive l v s, shift)
  | .shiftOut i => (drive .DO (shift.getLsbD i) s, shift)
  | .wait => (waitFor c.delay s, shift)
  | .shiftIn i =>
    let r := sample s
    (r.2, setBit (if i = 7 then 0 else shift) i r.1)
  | .bufRead i =>
    let r := memRead c.buf i s
    (r.2, r.1)
  | .bufWrite i => (memWrite c.buf i shift s, shift)
  | .sampleLine =>
    let r := sample s
    ({ r.2 with line := r.1 }, shift)

/-- One step of the block: the event at the position, then the next position, or completion with the
last event (10 R26, 43 R87). While Idle nothing happens (43 R87). -/
def advance (s : State) : Host.Outcome State Fault Refusal :=
  match s.phase with
  | .idle => .next s
  | .busy c k shift =>
    match (body c)[k]? with
    | none => .refused .positionPastEnd
    | some op =>
      let r := perform op c shift s
      if k + 1 < (body c).length then .next { r.1 with phase := .busy c (k + 1) r.2 }
      else .next (complete c r.1)

end Sys2Proof.Machine
end

