-- ==== Sys2Proof/Machine/HostPort.lean ====
section
/-! DEFINITION. The host's side: register and buffer accesses (10 R17 to R24, 20 R33), the held write
(43 R85), reset (70 R109), and who moves next (log 4). -/

namespace Sys2Proof.Machine

/-- A host write of CMD with the buffer it binds: held while BUSY = 1; else the word is decoded, and rejected
or executed with that buffer (20 R31; 43 R85, R86). -/
def writeCmd (w : Word) (buf : Binding) (s : State) : Host.Outcome State Fault Refusal :=
  if s.busy then holdWrite (.cmd w buf) s
  else
    match decode w with
    | .ok i => exec i { s with binding := buf }
    | .error _ => .next (reject .illegal s)

/-- A host write of DELAY: held while BUSY = 1; else bits 15:0 are stored (10 R24). -/
def writeDelay (w : Word) (s : State) : Host.Outcome State Fault Refusal :=
  if s.busy then holdWrite (.delay w) s
  else .next { s with delay := delayOfWord w }

/-- Carry out a write that was held (43 R85). -/
def performHeld (hw : HostWrite) (s : State) : Host.Outcome State Fault Refusal :=
  match hw with
  | .cmd w buf => writeCmd w buf s
  | .delay w => writeDelay w s

/-- The block's move: the next event while Busy; while Idle the held write proceeds, if there is one,
and otherwise nothing happens (43 R85, R87; log 7). -/
def blockStep (s : State) : Host.Outcome State Fault Refusal :=
  if s.busy then advance s
  else
    match s.held with
    | some hw => performHeld hw { s with held := none }
    | none => .next s

/-- What a register reads as: CMD 0, STATUS, DELAY (10 R18, R19, R24). -/
def regValue (n : Nat) (s : State) : Option Word :=
  match n with
  | 0 => some 0
  | 1 => some s.status
  | 2 => some s.delayWord
  | _ => none

/-- A host read of a register: no side effect but the answer (20 R34). -/
def readReg (n width : Nat) (s : State) : Host.Outcome State Fault Refusal :=
  if width = 32 then
    match regValue n s with
    | some v => .next { s with answer := some v }
    | none => .refused (.noSuchRegister n)
  else .refused (.notAWord width)

/-- A host write of a register: CMD issues, STATUS ignores, DELAY stores (10 R18, R19, R24). -/
def writeReg (n width : Nat) (w : Word) (buf : Binding) (s : State) : Host.Outcome State Fault Refusal :=
  if width = 32 then
    match n with
    | 0 => writeCmd w buf s
    | 1 => .next s
    | 2 => writeDelay w s
    | _ => .refused (.noSuchRegister n)
  else .refused (.notAWord width)

/-- What a host read of a byte that a READ is filling sees: the byte from before it or the one now stored,
and which of the two is free (20 R33, 93 I16; log 11). -/
def seenByte (a : Nat) (s : State) : Byte :=
  if Config.seesOldByte s.peeks then s.prior.byteAt a else s.memory.byteAt a

/-- A host read of a byte, at any time (20 R33; log 11). -/
def readBuffer (a : Nat) (s : State) : Host.Outcome State Fault Refusal :=
  if s.receiving a then
    .next { s with answer := some ((seenByte a s).setWidth 32), peeks := s.peeks + 1 }
  else .next { s with answer := some ((s.memory.byteAt a).setWidth 32) }

/-- A host write of a byte: refused while BUSY = 1 in the running command's buffer (20 R33). -/
def writeBuffer (a : Nat) (v : Byte) (s : State) : Host.Outcome State Fault Refusal :=
  if s.owned a then .refused (.bufferBusy a)
  else .next { s with memory := s.memory.store a v }

/-- WAITIDLE: while BUSY = 1 the block moves and the host goes on waiting; then STATUS is the answer
(30 R62). -/
def waitIdle (rest : List HostAction) (s : State) : Host.Outcome State Fault Refusal :=
  if s.busy then blockStep s
  else .next { s with host := rest, answer := some s.status }

/-- CHECK mask, value: read STATUS, and stop unless it agrees under the mask (30 R62). -/
def checkStatus (mask value : Word) (s : State) : Host.Outcome State Fault Refusal :=
  if s.status &&& mask = value then .next { s with answer := some s.status }
  else .fault (.checkFailed mask value s.status)

/-- The outside world's next action `a`, which a host stalled on a held write does not make; `rest`
is what follows it (60 R108; log 4, log 7). -/
def hostStep (a : HostAction) (rest : List HostAction) (s : State) :
    Host.Outcome State Fault Refusal :=
  match a with
  | .tick => blockStep { s with host := rest }
  | .readReg n width => readReg n width { s with host := rest }
  | .writeReg n width w buf => writeReg n width w buf { s with host := rest }
  | .readBuffer a => readBuffer a { s with host := rest }
  | .writeBuffer a v => writeBuffer a v { s with host := rest }
  | .waitIdle => waitIdle rest s
  | .check mask value => checkStatus mask value { s with host := rest }
  | .driveLine l _ => .refused (.lineDrivenOutside l)
  | .assertReset => .next (resetBlock { s with host := rest })

/-- Does the action happen although the host is stalled on a held write? The passing of time, reset, and
a line driven from outside do; the host's own accesses wait (43 R85, 70 R109, 20 R50). -/
def HostAction.ignoresStall : HostAction → Bool
  | .tick | .assertReset | .driveLine _ _ => true
  | .readReg _ _ | .writeReg _ _ _ _ | .readBuffer _ | .writeBuffer _ _ | .waitIdle | .check _ _ => false

/-- Who moves: with no action listed, or with the host stalled on a held write, the block; else the
outside world's next action (log 4). -/
def moveNext (s : State) : Host.Outcome State Fault Refusal :=
  match s.host with
  | [] => blockStep s
  | a :: rest =>
    if s.held.isSome && !a.ignoresStall then blockStep s
    else hostStep a rest s

/-- The state in which the host's very next action writes the low `nbits` bits of `w` to CMD, with
the buffer last bound: a host that is not stalled, with that write ahead of all else it was to do (log 5, log 18). -/
def placeCommand (nbits w : Nat) (s : State) : State :=
  { s with
    held := none
    host := .writeReg 0 32 (BitVec.ofNat 32 (w % 2 ^ nbits)) s.binding :: s.host }

end Sys2Proof.Machine
end

