-- ==== Sys2Proof/Machine/Step.lean ====
section
/-! DEFINITION. One step of the whole machine, and where its next command is placed. -/

namespace Sys2Proof.Machine

/-- One step: the outside world's next action, or one event of the running command (`moveNext`). -/
def step (s : State) : Host.Outcome State Fault Refusal := moveNext s

/-- `s` with the command word `w` as the host's next CMD write (`placeCommand`). -/
def State.withFetchWord (s : State) (nbits w : Nat) : State := placeCommand nbits w s

end Sys2Proof.Machine
end

