-- ==== Sys2Proof/Machine/Program.lean ====
section
/-! DEFINITION. A command program as the host's actions (30 R61, R62), with the one buffer it works on. -/

namespace Sys2Proof.Machine

/-- One CMD write of a command's word (30 R61). -/
def cmdWrite (buf : Binding) (i : Instr) : HostAction := .writeReg 0 32 (encode i) buf

/-- FILL from address i on (30 R62). -/
def fillFrom (i : Nat) : List Nat → List HostAction
  | [] => []
  | b :: bytes => .writeBuffer i (BitVec.ofNat 8 b) :: fillFrom (i + 1) bytes

/-- The host actions one statement stands for (30 R61, R62). -/
def stmtActions (buf : Binding) : Stmt → List HostAction
  | .init => [cmdWrite buf .init]
  | .write addr n => [cmdWrite buf (.write (BitVec.ofNat 8 addr) (BitVec.ofNat 8 n))]
  | .writeBytes addr bytes =>
    fillFrom buf.base bytes ++ [cmdWrite buf (.write (BitVec.ofNat 8 addr) (BitVec.ofNat 8 bytes.length))]
  | .read addr n => [cmdWrite buf (.read (BitVec.ofNat 8 addr) (BitVec.ofNat 8 n))]
  | .linestate => [cmdWrite buf .linestate]
  | .delay n => [.writeReg 2 32 (BitVec.ofNat 32 n) buf]
  | .waitIdle => [.waitIdle]
  | .fill bytes => fillFrom buf.base bytes
  | .check mask value => [.check (BitVec.ofNat 32 mask) (BitVec.ofNat 32 value)]
  | .word w => [.writeReg 0 32 (BitVec.ofNat 32 w) buf]

/-- Does the statement end in a CMD write? -/
def isCommandLine : Stmt → Bool
  | .init | .write _ _ | .writeBytes _ _ | .read _ _ | .linestate | .word _ => true
  | .delay _ | .waitIdle | .fill _ | .check _ _ => false

/-- The host actions of a program, on one buffer; none if a statement is not one the assembler takes. With
`waits`, each command line is followed by WAITIDLE, as 30 R62 says of the programs of 95_test_vectors.md;
without it the lines stand as they are written, and a CMD or DELAY write that finds BUSY = 1 is held. DESIGN
CHOICE (log 16): which of the two a program is, its reader says, since 30 R62 speaks of those programs only. -/
def programActions (waits : Bool) (buf : Binding) (p : List Stmt) : Option (List HostAction) :=
  if p.all Stmt.wellFormed then
    some (p.flatMap fun st => stmtActions buf st ++ if waits && isCommandLine st then [.waitIdle] else [])
  else none

end Sys2Proof.Machine
end

