-- ==== Sys2Proof/Machine/Reference.lean ====
section
/-! DEFINITION. What a whole command does, written from the pseudocode a second time as plain functions
of its operands (41 R70, R71; 42 R74; 43 R88 to R92): the events it makes and the state it leaves.
The step function does not use these; the statements compare it with them. -/

namespace Sys2Proof.Machine

/-- The events of SEND_BYTE(v) (41 R70). -/
def sendByteTrace (d : Micros) (v : Byte) : List Event :=
  [0, 1, 2, 3, 4, 5, 6, 7].flatMap fun i =>
    [.lvl .DO (v.getLsbD i), .lvl .CL true, .wait d, .lvl .CL false, .wait d]

/-- The events of RECEIVE_BYTE() when its samples in order are `f 0` to `f 7` (41 R71). -/
def receiveByteTrace (d : Micros) (f : Nat → Level) : List Event :=
  [0, 1, 2, 3, 4, 5, 6, 7].flatMap fun j =>
    [.lvl .CL true, .wait d, .smp .DI (f j), .lvl .CL false, .wait d]

/-- The byte RECEIVE_BYTE() returns: the first sample in bit 7, the last in bit 0 (41 R71). -/
def receivedByte (f : Nat → Level) : Byte :=
  BitVec.ofBool (f 0) ++ BitVec.ofBool (f 1) ++ BitVec.ofBool (f 2) ++ BitVec.ofBool (f 3)
    ++ BitVec.ofBool (f 4) ++ BitVec.ofBool (f 5) ++ BitVec.ofBool (f 6) ++ BitVec.ofBool (f 7)

/-- The events of the Send loop over indices n-1 down to 0 of a buffer, its bytes by index (42 R77). -/
def sendLoopTrace (d : Micros) (m : Nat → Byte) : Nat → List Event
  | 0 => []
  | n + 1 => .bufRd n (m n) :: (sendByteTrace d (m n) ++ sendLoopTrace d m n)

/-- The events of the Receive loop over indices 0 to n-1, with the samples `f 0, f 1, ...` (42 R78). -/
def receiveLoopTrace (d : Micros) (f : Nat → Level) : Nat → List Event
  | 0 => []
  | n + 1 =>
    receiveLoopTrace d f n ++ receiveByteTrace d (fun j => f (8 * n + j))
      ++ [.bufWr n (receivedByte fun j => f (8 * n + j))]

/-- The events of TRANSACT around its payload's (42 R74). -/
def transactTrace (d : Micros) (addr : Byte) (payload : List Event) : List Event :=
  sendByteTrace d (nibbleSwap addr) ++ [.lvl .CL false, .lvl .CE true, .wait d] ++ payload
    ++ [.lvl .CE false, .wait d]

/-- The events of WRITE (43 R90). -/
def writeTrace (d : Micros) (addr : Byte) (m : Nat → Byte) (n : Nat) : List Event :=
  transactTrace d addr (sendLoopTrace d m n ++ [.lvl .DO false])

/-- The events of READ (43 R91). -/
def readTrace (d : Micros) (addr : Byte) (f : Nat → Level) (n : Nat) : List Event :=
  transactTrace d addr (receiveLoopTrace d f n)

/-- The events of INIT (43 R88). -/
def initTrace (d : Micros) : List Event :=
  [.dir .DO .output, .dir .CL .output, .dir .CE .output, .dir .DI .inputPullup,
    .lvl .DO false, .lvl .CL false, .lvl .CE true, .wait d, .lvl .CE false, .wait d]

/-- The memory once n received bytes are stored at indices 0 to n-1 of a buffer (42 R78). -/
def storeReceived (f : Nat → Level) (buf : Binding) (m : Memory) : Nat → Memory
  | 0 => m
  | n + 1 => (storeReceived f buf m n).store (buf.base + n) (receivedByte fun j => f (8 * n + j))

/-- The level the n-th sample from here takes: one supplied, or a free one (00 R12; log 2). -/
def State.levelAt (s : State) (n : Nat) : Level :=
  if h : n < s.diInput.length then s.diInput[n]
  else Config.diLevel (s.draws + (n - s.diInput.length))

/-- The state once n samples have been taken. -/
def takeLevels (n : Nat) (s : State) : State :=
  { s with diInput := s.diInput.drop n, draws := s.draws + (n - s.diInput.length) }

/-- The lines after any INIT (43 R88, R89). -/
def Lines.configured : Lines where
  dirDO := .output
  dirCL := .output
  dirDI := .inputPullup
  dirCE := .output
  outDO := false
  outCL := false
  outCE := false

/-- The state an INIT issued in s leaves (43 R88). -/
def afterInit (s : State) : State :=
  { s with
    lines := Lines.configured
    initDone := true
    err := .none
    prior := s.memory
    trace := s.trace ++ initTrace s.delay }

/-- The state a WRITE issued in s leaves (43 R90, 42 R80). -/
def afterWrite (addr len : Byte) (s : State) : State :=
  { s with
    lines := { s.lines with outDO := false, outCL := false, outCE := false }
    err := .none
    prior := s.memory
    trace := s.trace ++ writeTrace s.delay addr (s.memory.bound s.binding) len.toNat }

/-- The state a READ issued in s leaves (43 R91, 42 R80). -/
def afterRead (addr len : Byte) (s : State) : State :=
  { takeLevels (8 * len.toNat) s with
    lines := { s.lines with outDO := addr.getLsbD 3, outCL := false, outCE := false }
    err := .none
    prior := s.memory
    memory := storeReceived s.levelAt s.binding s.memory len.toNat
    trace := s.trace ++ readTrace s.delay addr s.levelAt len.toNat }

/-- The state a LINESTATE issued in s leaves (43 R92). -/
def afterLinestate (s : State) : State :=
  { takeLevels 1 s with
    line := s.levelAt 0
    err := .none
    prior := s.memory
    trace := s.trace ++ [.smp .DI (s.levelAt 0)] }

/-- How many events a command makes, buffer events counted (42 R82, 70 R121). -/
def eventCount : Instr → Nat
  | .init => 10
  | .write _ len => 40 * (len.toNat + 1) + 6 + len.toNat
  | .read _ len => 40 * (len.toNat + 1) + 5 + len.toNat
  | .linestate => 1

end Sys2Proof.Machine
end

