-- ==== Sys2Proof/Machine/Timing.lean ====
section
/-! DEFINITION. Which time stamps a trace may carry (00 R11, 40 R66, R67), in microseconds as
real numbers, whatever the block's clock (92 D10). The step function has no time; this relation is all that is
assumed of it (log 10). -/

namespace Sys2Proof.Machine

/-- An event with the times, in microseconds, at which it begins and ends. -/
structure Stamped where
  event : Event
  start : ℝ
  stop : ℝ

/-- A wait of d microseconds lasts at least d and at most d + `T_WAIT_SLACK` (40 R66); every other event
happens at one instant. -/
def Stamped.lasts (x : Stamped) : Prop :=
  match x.event with
  | .wait d =>
    x.start + d.toNat ≤ x.stop ∧ x.stop ≤ x.start + d.toNat + Config.tWaitSlack
  | .dir _ _ | .lvl _ _ | .smp _ _ | .bufRd _ _ | .bufWr _ _ => x.stop = x.start

/-- The time stamps a trace may carry: in trace order, with at least `T_GAP` from each event to the next
(40 R67). -/
def Timed : List Stamped → Prop
  | [] => True
  | [x] => x.lasts
  | x :: y :: rest => x.lasts ∧ x.stop + Config.tGap ≤ y.start ∧ Timed (y :: rest)

/-- The microseconds a trace waits at least: the sum of its waits (70 R121). -/
def waitedMicros : List Event → Nat
  | [] => 0
  | .wait d :: es => d.toNat + waitedMicros es
  | .dir _ _ :: es | .lvl _ _ :: es | .smp _ _ :: es | .bufRd _ _ :: es | .bufWr _ _ :: es =>
    waitedMicros es

end Sys2Proof.Machine
end

