-- ==== Sys2Proof/Machine/Wire.lean ====
section
/-! DEFINITION. Reading a trace as waveforms: what events do to the lines (10 R14), edges (40 R68), the
levels at each clock edge, and counts of events (42 R82, 70 R121). -/

namespace Sys2Proof.Machine

/-- What one event does to the lines: `Dir` and `Lvl` events change them, the others do not (10 R14). -/
def Lines.after (ln : Lines) : Event → Lines
  | .dir l m => ln.setDir l m
  | .lvl l v => ln.setOut l v
  | .wait _ | .smp _ _ | .bufRd _ _ | .bufWr _ _ => ln

/-- The lines after a list of events. -/
def replay (ln : Lines) (es : List Event) : Lines := es.foldl Lines.after ln

/-- A rising edge of l: `Lvl(l, 1)` while the pin was low (40 R68). -/
def risingEdge (l : OutLine) (ln : Lines) (e : Event) : Bool :=
  e == .lvl l true && ln.pin l == some false

/-- A falling edge of l: `Lvl(l, 0)` while the pin was high (40 R68). -/
def fallingEdge (l : OutLine) (ln : Lines) (e : Event) : Bool :=
  e == .lvl l false && ln.pin l == some true

/-- The lines as they stand at each rising edge of CL, in order (40 R68). -/
def linesAtRises : Lines → List Event → List Lines
  | _, [] => []
  | ln, e :: es =>
    if risingEdge .CL ln e then ln.after e :: linesAtRises (ln.after e) es
    else linesAtRises (ln.after e) es

/-- The lines as they stand just before each falling edge of CL, in order (40 R68). -/
def linesAtFalls : Lines → List Event → List Lines
  | _, [] => []
  | ln, e :: es =>
    if fallingEdge .CL ln e then ln :: linesAtFalls (ln.after e) es
    else linesAtFalls (ln.after e) es

/-- DO at each rising edge of CL ("DO@rise", 95). -/
def doAtRises (ln : Lines) (es : List Event) : List (Option Level) :=
  (linesAtRises ln es).map fun x => x.pin .DO

/-- CE at each rising edge of CL ("CE@rise", 95). -/
def ceAtRises (ln : Lines) (es : List Event) : List (Option Level) :=
  (linesAtRises ln es).map fun x => x.pin .CE

/-- CE at each falling edge of CL. -/
def ceAtFalls (ln : Lines) (es : List Event) : List (Option Level) :=
  (linesAtFalls ln es).map fun x => x.pin .CE

/-- The levels a byte puts on DO, least-significant bit first (20 R36). -/
def bitsOut (v : Byte) : List Level := [0, 1, 2, 3, 4, 5, 6, 7].map v.getLsbD

/-- The payload levels of a Send of n buffer bytes, given by their index: index n-1 first, index 0 last (20 R37). -/
def payloadBitsOut (m : Nat → Byte) : Nat → List Level
  | 0 => []
  | n + 1 => bitsOut (m n) ++ payloadBitsOut m n

/-- The pin of l after each event in turn. -/
def pinAfterEach (l : OutLine) : Lines → List Event → List (Option Level)
  | _, [] => []
  | ln, e :: es => (ln.after e).pin l :: pinAfterEach l (ln.after e) es

/-- Is it a `BufRd` or `BufWr` event? -/
def Event.isBuf : Event → Bool
  | .bufRd _ _ | .bufWr _ _ => true
  | .dir _ _ | .lvl _ _ | .wait _ | .smp _ _ => false

/-- Is it a `BufWr` event? -/
def Event.isBufWr : Event → Bool
  | .bufWr _ _ => true
  | .bufRd _ _ | .dir _ _ | .lvl _ _ | .wait _ | .smp _ _ => false

/-- Is it a `Wait` event? -/
def Event.isWait : Event → Bool
  | .wait _ => true
  | .dir _ _ | .lvl _ _ | .smp _ _ | .bufRd _ _ | .bufWr _ _ => false

/-- Is it a `Smp` event? -/
def Event.isSmp : Event → Bool
  | .smp _ _ => true
  | .dir _ _ | .lvl _ _ | .wait _ | .bufRd _ _ | .bufWr _ _ => false

/-- The clock pulses of a trace: its rising edges of CL (40 R68). -/
def clockPulses (ln : Lines) (es : List Event) : Nat := (linesAtRises ln es).length

end Sys2Proof.Machine
end

