-- ==== Sys2Proof/Safety.lean ====
section
/-! DEFINITION. What a good state is (10 R29), and which host actions keep the host's duties (60 R108). -/

namespace Sys2Proof.Machine

/-- The direction INIT gives a line (43 R88). -/
def initDir : Line → Dir
  | .DO | .CL | .CE => .output
  | .DI => .inputPullup

/-- The directions are those INIT sets (10 R29 (b)). -/
def Lines.dirsSet (ln : Lines) : Bool :=
  ln.dirDO = .output && ln.dirCL = .output && ln.dirDI = .inputPullup && ln.dirCE = .output

/-- CL and CE at rest: both latches 0 (10 R29 (c)). -/
def Lines.atRest (ln : Lines) : Bool := !ln.outCL && !ln.outCE

/-- The rest of a command, begun with these lines, sets directions as INIT does, drives outputs only,
touches buffer indices below 127 only, and ends with CL and CE at rest; and, where `sets` asks it,
with the directions set. -/
def restIsSafe (sets : Bool) : Lines → List MicroOp → Bool
  | ln, [] => ln.atRest && (!sets || ln.dirsSet)
  | ln, .setDir l m :: ops => m = initDir l && restIsSafe sets (ln.setDir l m) ops
  | ln, .drive l v :: ops => ln.dirOf l = .output && restIsSafe sets (ln.setOut l v) ops
  | ln, .shiftOut _ :: ops => ln.dirDO = .output && restIsSafe sets ln ops
  | ln, .bufRead i :: ops | ln, .bufWrite i :: ops => i < Config.lenMax && restIsSafe sets ln ops
  | ln, .wait :: ops | ln, .shiftIn _ :: ops | ln, .sampleLine :: ops => restIsSafe sets ln ops

/-- Idle, CL and CE rest (10 R29 (c)); Busy, the position is inside the body, a transaction runs only
after an INIT (43 R86), and the rest of the body is safe. -/
def State.phaseSafe (s : State) : Bool :=
  match s.phase with
  | .idle => s.lines.atRest
  | .busy c k _ =>
    k < (body c).length && (c.op ≠ .xfer || s.initDone)
      && restIsSafe (c.op = .init) s.lines ((body c).drop k)

/-- The invariant (10 R29): DI is never an output; once INIT has completed the directions are set; the
phase is safe; the memory is in canonical form. -/
abbrev State.Inv (s : State) : Prop :=
  s.lines.dirDI ≠ .output ∧ (s.initDone = true → s.lines.dirsSet = true) ∧ s.phaseSafe = true ∧
    s.memory.wf = true

/-- Does a host action keep, in this state, the duties of 60 R108 whose breach is refused? -/
def HostAction.dutiful (s : State) : HostAction → Bool
  | .tick | .readBuffer _ | .waitIdle | .check _ _ | .assertReset => true
  | .readReg n width | .writeReg n width _ _ => n < 3 && width = 32
  | .writeBuffer a _ => !s.owned a
  | .driveLine _ _ => false

end Sys2Proof.Machine
end

