-- ==== Sys2Proof/Certificates/Slice0/Obligations.lean ====
section
/-! DEFINITION. The statements about the machine, for the provers. Each docstring names the rule of
spec/ it says, or that it is the model's own choice. -/

open Sys2Proof Sys2Proof.Machine

/-! ### Encoding (30) -/

/-- Seven words of 30 R56 and 95 section 2.1: six decode to their commands, and the seventh is reserved. -/
def Obligations.WordsDecodeToTheirCommands : Prop :=
  decode 0x00000000#32 = .ok .init ∧ decode 0x00000002#32 = .ok .linestate ∧
    decode 0x00038201#32 = .ok (.write 0x82#8 3#8) ∧ decode 0x00028305#32 = .ok (.read 0x83#8 2#8) ∧
    decode 0x00800001#32 = .ok (.write 0#8 128#8) ∧ decode 0x00C81005#32 = .ok (.read 0x10#8 200#8) ∧
    decode 0x00C80003#32 = .error .op

/-- A word decodes to a command exactly when it is that command's word: every operand at every value,
no bit dropped and no second spelling (30 R56, R58). -/
def Obligations.DecodeAndEncodeAgree : Prop :=
  ∀ (w : Word) (i : Instr), decode w = .ok i ↔ encode i = w

/-- 30 R57: the words that decode to no command are exactly those with OP = 3, a reserved field that is
not 0, or operands on INIT or LINESTATE; writing one to CMD sets ERR to E_ILLEGAL and nothing else. -/
def Obligations.ReservedWordsAreExactlyTheListedOnes : Prop :=
  ∀ w : Word,
    ((∃ r, decode w = .error r) ↔
      (opField w = 3#2 ∨ (rsv0Field w ≠ 0#5 ∨ rsv1Field w ≠ 0#8) ∨
        ((opField w = 0#2 ∨ opField w = 2#2) ∧
          (modeField w ≠ 0#1 ∨ addrField w ≠ 0#8 ∨ lenField w ≠ 0#8)))) ∧
    ∀ (r : Reserved) (buf : Binding) (rest : List HostAction) (s : State), decode w = .error r → s.busy = false →
      s.held = none → s.host = .writeReg 0 32 w buf :: rest →
      step s = .next { s with host := rest, err := .illegal }

/-- What each statement of a command program stands for. The mnemonics' words are those of the calls,
`(n << 16) | (addr << 8) | MODE << 2 | OP`, and `.word` is its number as it is (30 R61, R62); FILL writes its
i-th byte at index i and no more; the brace form of WRITE is FILL and then WRITE with the number of bytes;
DELAY writes register 2; WAITIDLE and CHECK are themselves (30 R62). That each CMD write binds the program's
one buffer is the model's (20 R31; log 3). -/
def Obligations.StatementWordsAreTheCallsWords : Prop :=
  ∀ (addr n m : Nat) (bytes : List Nat) (buf : Binding),
    (addr < 256 → n < 256 →
      stmtActions buf (.write addr n) =
        [.writeReg 0 32 (BitVec.ofNat 32 (n * 65536 + addr * 256 + 1)) buf] ∧
      stmtActions buf (.read addr n) =
        [.writeReg 0 32 (BitVec.ofNat 32 (n * 65536 + addr * 256 + 5)) buf]) ∧
    (addr < 256 → bytes.length < 256 →
      stmtActions buf (.writeBytes addr bytes) =
        stmtActions buf (.fill bytes) ++
          [.writeReg 0 32 (BitVec.ofNat 32 (bytes.length * 65536 + addr * 256 + 1)) buf]) ∧
    (∀ i : Nat, (stmtActions buf (.fill bytes))[i]? =
      (bytes[i]?).map fun b => .writeBuffer (buf.base + i) (BitVec.ofNat 8 b)) ∧
    stmtActions buf .init = [.writeReg 0 32 0#32 buf] ∧
    stmtActions buf .linestate = [.writeReg 0 32 2#32 buf] ∧
    stmtActions buf (.delay n) = [.writeReg 2 32 (BitVec.ofNat 32 n) buf] ∧
    stmtActions buf (.word n) = [.writeReg 0 32 (BitVec.ofNat 32 n) buf] ∧
    stmtActions buf .waitIdle = [.waitIdle] ∧
    stmtActions buf (.check m n) = [.check (BitVec.ofNat 32 m) (BitVec.ofNat 32 n)]

/-- The nibble swap is the two shifts, its own inverse, and fixes exactly the bytes with equal nibbles
(42 R75). -/
def Obligations.NibbleSwapIsItsOwnInverse : Prop :=
  ∀ a : Byte, nibbleSwap a = (a >>> 4 ||| a <<< 4) ∧ nibbleSwap (nibbleSwap a) = a ∧
    (nibbleSwap a = a ↔ a.extractLsb' 4 4 = a.extractLsb' 0 4)

/-! ### Issue, rejection and the held write (43 R85, R86; 60 R95, R96) -/

/-- An idle block accepts INIT and LINESTATE whatever INIT_DONE is: ERR = E_NONE, Busy, DELAY and the buffer
latched, nothing else of the block changed (43 R85, R86; 20 R31). The model's own: acceptance is a step that
makes no event (log 6), the first shifted byte (log 8), the buffer taken from `binding` (log 3), the memory
kept as `prior` (log 11). -/
def Obligations.InitAndLinestateAreAcceptedWhileIdle : Prop :=
  ∀ s : State, s.busy = false →
    exec .init s =
      .next { s with
        err := .none, prior := s.memory
        phase := .busy ⟨.init, .send, 0#8, 0#8, s.delay, s.binding⟩ 0 0#8 } ∧
    exec .linestate s =
      .next { s with
        err := .none, prior := s.memory
        phase := .busy ⟨.linestate, .send, 0#8, 0#8, s.delay, s.binding⟩ 0 0#8 }

/-- An idle block accepts WRITE and READ with LEN up to 127 once INIT_DONE is 1: ERR = E_NONE, Busy,
operands, DELAY and the buffer latched, nothing else of the block changed (43 R85, R86; 20 R31). The model's
own: acceptance is a step that makes no event (log 6), the shifted byte is the swapped address from there on
(log 8), the buffer is taken from `binding` (log 3), the memory is kept as `prior` (log 11). -/
def Obligations.WriteAndReadAreAcceptedAfterInit : Prop :=
  ∀ (addr len : Byte) (s : State), s.busy = false → s.initDone = true → len.toNat ≤ 127 →
    exec (.write addr len) s =
      .next { s with
        err := .none, prior := s.memory
        phase := .busy ⟨.xfer, .send, addr, len, s.delay, s.binding⟩ 0 (nibbleSwap addr) } ∧
    exec (.read addr len) s =
      .next { s with
        err := .none, prior := s.memory
        phase := .busy ⟨.xfer, .receive, addr, len, s.delay, s.binding⟩ 0 (nibbleSwap addr) }

/-- An idle block rejects WRITE and READ with LEN above 127, and before INIT those up to 127: only ERR
changes (60 R96). -/
def Obligations.TransfersAreRejectedByLengthThenByInit : Prop :=
  ∀ (addr len : Byte) (s : State), s.busy = false →
    (127 < len.toNat → exec (.write addr len) s = .next { s with err := .len } ∧
      exec (.read addr len) s = .next { s with err := .len }) ∧
    (len.toNat ≤ 127 → s.initDone = false →
      exec (.write addr len) s = .next { s with err := .noInit } ∧
      exec (.read addr len) s = .next { s with err := .noInit })

/-- A CMD write to an idle block meets the three checks of 43 R86 in their order, the first that fails
decides the code and nothing else of the block changes, and a word that passes them all is accepted with the
buffer it binds (20 R31). The model's own: `binding` (log 3), a step of acceptance without an event (log 6),
the shifted byte (log 8), `prior` (log 11). -/
def Obligations.CommandWritesAreValidatedInOrder : Prop :=
  ∀ (w : Word) (buf : Binding) (rest : List HostAction) (s : State), s.busy = false → s.held = none →
    s.host = .writeReg 0 32 w buf :: rest →
    (∀ r, decode w = .error r → step s = .next { s with host := rest, err := .illegal }) ∧
    (∀ i, decode w = .ok i → isTransfer i = true → 127 < i.length →
      step s = .next { s with host := rest, binding := buf, err := .len }) ∧
    (∀ i, decode w = .ok i → isTransfer i = true → i.length ≤ 127 → s.initDone = false →
      step s = .next { s with host := rest, binding := buf, err := .noInit }) ∧
    (∀ i, decode w = .ok i → (isTransfer i = true → i.length ≤ 127 ∧ s.initDone = true) →
      step s = .next { s with
        host := rest, binding := buf, err := .none, prior := s.memory
        phase := .busy (latch i s.delay buf) 0 (nibbleSwap (latch i s.delay buf).addr) })

/-- While BUSY = 1 a command of any kind, with its buffer, and a DELAY write are held and have no other
effect (10 R18, R20; 20 R31; 43 R85). -/
def Obligations.WritesAreHeldWhileBusy : Prop :=
  ∀ s : State, s.busy = true → s.held = none →
    (∀ i : Instr, exec i s = .next { s with held := some (.cmd (encode i) s.binding) }) ∧
    (∀ (w : Word) (buf : Binding) (rest : List HostAction), s.host = .writeReg 0 32 w buf :: rest →
      step s = .next { s with host := rest, held := some (.cmd w buf) }) ∧
    (∀ (w : Word) (buf : Binding) (rest : List HostAction), s.host = .writeReg 2 32 w buf :: rest →
      step s = .next { s with host := rest, held := some (.delay w) })

/-- Once the block is idle the held write proceeds as if the host made it then, a command with the buffer
bound to it when it was held, whatever the stalled host is to do next (43 R85, 20 R31). That it takes a step
of its own, the one in which the host's next action or a `tick` finds the block idle, is the model's choice
(log 4, log 7). -/
def Obligations.HeldWriteProceedsOnceIdle : Prop :=
  ∀ (s : State) (rest : List HostAction), s.busy = false →
    (s.host = rest ∧ (∀ a, s.host.head? = some a → a.ignoresStall = false) ∨ s.host = .tick :: rest) →
    (∀ (w : Word) (buf : Binding), s.held = some (.cmd w buf) →
      step s = step { s with held := none, host := .writeReg 0 32 w buf :: rest }) ∧
    (∀ w : Word, s.held = some (.delay w) →
      step s = .next { s with host := rest, held := none, delay := delayOfWord w })

/-- While BUSY = 1 no step but reset lifts a held write (43 R85, 70 R117). That the stalled host makes no
access at all until then, reads of STATUS and DELAY among them, is the model's reading of "the host stalls"
(log 7). -/
def Obligations.HeldWriteWaitsForTheCommandToEnd : Prop :=
  ∀ (s s' : State) (hw : HostWrite), s.busy = true → s.held = some hw → step s = .next s' →
    s.host.head? ≠ some .assertReset →
    s'.held = some hw ∧ s'.answer = s.answer ∧
      (∀ a rest, s.host = a :: rest → a.ignoresStall = false → s'.host = s.host)

/-- A step whose host action is a CMD write of a word that decodes runs that command, with the buffer the
write binds, on the state with the action taken off the list; while BUSY = 1 the command and its buffer are
held (43 R85, 20 R31). That the very next step after
`withFetchWord` does so too, with a held write cleared, is how the model places a command (log 5, log 18). -/
def Obligations.StepRunsTheDecodedCommand : Prop :=
  ∀ (w : Word) (i : Instr) (s : State), decode w = .ok i →
    (∀ (buf : Binding) (rest : List HostAction), s.held = none → s.host = .writeReg 0 32 w buf :: rest →
      (s.busy = false → step s = exec i { s with host := rest, binding := buf }) ∧
      (s.busy = true → step s = .next { s with host := rest, held := some (.cmd (encode i) buf) })) ∧
    step (s.withFetchWord 32 w.toNat) = exec i { s with held := none }

/-! ### Registers and the buffer as the host sees them (10 R17 to R24, 20 R33) -/

/-- Reading CMD answers 0; reading STATUS answers BUSY at bit 0, INIT_DONE at 1, LINE at 2, ERR at 7:4,
E_NONE as 0, E_ILLEGAL as 1, E_LEN as 2 and E_NOINIT as 3, and 0 elsewhere; reading DELAY answers DELAY_US
with 0 above it; nothing but the answer changes (10 R18, R19, R23, R24; 20 R34). -/
def Obligations.RegisterReadsReturnTheirFields : Prop :=
  ∀ (s : State) (rest : List HostAction), s.held = none →
    (s.host = .readReg 0 32 :: rest → step s = .next { s with host := rest, answer := some 0#32 }) ∧
    (s.host = .readReg 1 32 :: rest →
      ∃ v : Word, step s = .next { s with host := rest, answer := some v } ∧
        v.toNat = s.busy.toNat + 2 * s.initDone.toNat + 4 * s.line.toNat + 16 *
          (match s.err with
          | .none => 0
          | .illegal => 1
          | .len => 2
          | .noInit => 3)) ∧
    (s.host = .readReg 2 32 :: rest →
      step s = .next { s with host := rest, answer := some (BitVec.ofNat 32 s.delay.toNat) })

/-- A write of STATUS has no effect; a write of DELAY to an idle block stores bits 15:0 (10 R19, R24). -/
def Obligations.StatusIgnoresAndDelayStoresWrites : Prop :=
  ∀ (s : State) (w : Word) (buf : Binding) (rest : List HostAction), s.held = none →
    (s.host = .writeReg 1 32 w buf :: rest → step s = .next { s with host := rest }) ∧
    (s.busy = false → s.host = .writeReg 2 32 w buf :: rest →
      step s = .next { s with host := rest, delay := BitVec.ofNat 16 w.toNat })

/-- An access to another register number or of another width, a host write of the running command's buffer
while BUSY = 1, and a line driven from outside, a write held or not, are refused (10 R17; 20 R33, R50). Which
bytes that buffer is, is the model's choice (log 3): all `size` bytes bound to the running command, a `size`
above 127 and the binding of an INIT or LINESTATE included, and the LEN bytes where `size` is below LEN. -/
def Obligations.ForbiddenAccessesAreRefused : Prop :=
  ∀ (s : State) (rest : List HostAction),
    (s.held = none →
      (∀ n width, (2 < n ∨ width ≠ 32) → s.host = .readReg n width :: rest →
        ∃ r, step s = .refused r) ∧
      (∀ n width w buf, (2 < n ∨ width ≠ 32) → s.host = .writeReg n width w buf :: rest →
        ∃ r, step s = .refused r) ∧
      (∀ c k b i v, s.phase = .busy c k b → (i < c.len.toNat ∨ i < c.buf.size) →
        s.host = .writeBuffer (c.buf.base + i) v :: rest →
        step s = .refused (.bufferBusy (c.buf.base + i)))) ∧
    (∀ l v, s.host = .driveLine l v :: rest → step s = .refused (.lineDrivenOutside l))

/-- A host write of a byte while BUSY = 0 stores that byte and leaves every other as it was, and the rest of
the state (20 R33, R34); that it does so while BUSY = 1 too, for a byte outside the running command's buffer,
is the model's choice (log 3). A host read answers the byte; but while a READ runs, a byte at an index below
LEN of its buffer is answered as it is stored or as it was before that READ (20 R33, 93 I16; that which of the
two is free, `prior` keeping the second, and that any other byte is answered as stored, is log 11). -/
def Obligations.HostReachesTheBuffer : Prop :=
  ∀ (s : State) (a : Nat) (v : Byte) (rest : List HostAction), s.held = none →
    ((∀ c k b, s.phase = .busy c k b →
        a < c.buf.base ∨ (c.buf.base + c.len.toNat ≤ a ∧ c.buf.base + c.buf.size ≤ a)) →
      s.host = .writeBuffer a v :: rest →
      ∃ m : Memory, step s = .next { s with host := rest, memory := m } ∧ m.byteAt a = v ∧
        ∀ j, j ≠ a → m.byteAt j = s.memory.byteAt j) ∧
    ((∀ c k b, s.phase = .busy c k b →
        ¬(c.op = .xfer ∧ c.mode = .receive ∧ c.buf.base ≤ a ∧ a < c.buf.base + c.len.toNat)) →
      s.host = .readBuffer a :: rest →
      step s = .next { s with
        host := rest, answer := some (BitVec.ofNat 32 (s.memory.byteAt a).toNat) }) ∧
    (∀ c k b, s.phase = .busy c k b → c.op = .xfer → c.mode = .receive → c.buf.base ≤ a →
      a < c.buf.base + c.len.toNat → s.host = .readBuffer a :: rest →
      ∃ w, (w = s.prior.byteAt a ∨ w = s.memory.byteAt a) ∧
        step s = .next { s with
          host := rest, answer := some (BitVec.ofNat 32 w.toNat), peeks := s.peeks + 1 })

/-- While a command runs, until its last event and in it, the memory kept when it was accepted stays: it is
the old bytes of 93 I16 throughout (20 R33; `prior` is the model's own, log 11). -/
def Obligations.PriorStaysWhileACommandRuns : Prop :=
  ∀ s s' : State, s.busy = true → step s = .next s' → s'.prior = s.prior

/-- CHECK goes on, answering STATUS, where `(STATUS & mask) = value`, and stops the program otherwise;
WAITIDLE goes on once BUSY = 0, answering STATUS, and until then the block moves (30 R62). That a failed
CHECK is a fault, that the STATUS read stays in `answer`, and that the waiting host lets the block make its
next event are the model's (log 16). -/
def Obligations.CheckAndWaitidleReadStatus : Prop :=
  ∀ (s : State) (mask value : Word) (rest : List HostAction), s.held = none →
    (s.host = .check mask value :: rest →
      (s.status &&& mask = value → step s = .next { s with host := rest, answer := some s.status }) ∧
      (s.status &&& mask ≠ value → step s = .fault (.checkFailed mask value s.status))) ∧
    (s.host = .waitIdle :: rest →
      (s.busy = false → step s = .next { s with host := rest, answer := some s.status }) ∧
      (s.busy = true → step s = blockStep s))

/-! ### Each command from issue to end (43 R87 to R92) -/

/-- INIT issued to an idle block runs its ten events in ten steps: directions set, latches 0, INIT_DONE = 1,
BUSY = 0, ERR = E_NONE, nothing else of the block changed (43 R87, R88; `prior` is log 11). That the steps
counted come after a step of acceptance is log 6. -/
def Obligations.InitRunsToItsEnd : Prop :=
  ∀ s : State, s.phase = .idle → s.host = [] →
    ∃ t, exec .init s = .next t ∧ Sys2Proof.core.run 10 t = .next (afterInit s)

/-- 43 R89: after any INIT, whatever the state before, the lines are as INIT sets them, INIT_DONE = 1,
BUSY = 0, ERR = E_NONE, LINE and DELAY unchanged; a second INIT changes nothing but the trace, which
gains its own ten events. -/
def Obligations.InitEndStateIsIdempotent : Prop :=
  ∀ s : State, s.phase = .idle → s.host = [] →
    ∃ t u t' u', exec .init s = .next t ∧ Sys2Proof.core.run 10 t = .next u ∧
      u.lines = Lines.configured ∧ u.initDone = true ∧ u.busy = false ∧ u.err = .none ∧
      u.line = s.line ∧ u.delay = s.delay ∧
      exec .init u = .next t' ∧ Sys2Proof.core.run 10 t' = .next u' ∧
      u' = { u with trace := u.trace ++ initTrace u.delay }

/-- An INIT issued to an idle block whose lines are as reset leaves them adds, in its ten steps, ten events
that raise CE once, from low, and lower it once, and make no clock pulse (40 R64, 43 R88). That the steps
counted come after a step of acceptance is log 6. -/
def Obligations.FirstInitMakesOneCleanPulse : Prop :=
  ∀ s : State, s.phase = .idle → s.host = [] → s.lines = Lines.reset →
    ∃ t u es, exec .init s = .next t ∧ Sys2Proof.core.run 10 t = .next u ∧ u.trace = s.trace ++ es ∧
      pinAfterEach .CE s.lines es =
        [none, none, some false, some false, some false, some false, some true, some true, some false,
          some false] ∧
      clockPulses s.lines es = 0

/-- LINESTATE issued to an idle block takes one step: one sample of DI, copied to LINE, BUSY = 0, ERR =
E_NONE, no line driven, nothing else of the block changed (43 R87, R92). The sampled level is the next one
supplied or a free one (log 2). That this step comes after a step of acceptance is log 6. -/
def Obligations.LinestateRunsToItsEnd : Prop :=
  ∀ s : State, s.phase = .idle → s.host = [] →
    ∃ t, exec .linestate s = .next t ∧ Sys2Proof.core.run 1 t = .next (afterLinestate s)

/-- WRITE issued to an idle, initialised block with LEN up to 127 runs to its end: exactly the events of
TRANSACT in Send mode on the buffer bound to it, in their order, DO, CL and CE low, BUSY = 0, the memory
and all else of the block unchanged (20 R31; 42 R74, R77, R80; 43 R87, R90). That `binding` holds the buffer
and `prior` the memory is the model's (log 3, log 11). -/
def Obligations.WriteRunsToItsEnd : Prop :=
  ∀ (addr len : Byte) (s : State), s.phase = .idle → s.host = [] → s.initDone = true →
    len.toNat ≤ 127 →
    ∃ t, exec (.write addr len) s = .next t ∧
      Sys2Proof.core.run (eventCount (.write addr len)) t = .next (afterWrite addr len s)

/-- READ issued to an idle, initialised block with LEN up to 127 runs to its end: exactly the events of
TRANSACT in Receive mode on the buffer bound to it, in their order, the received bytes stored, DO at
ADDR[3], CL and CE low, BUSY = 0, all else of the block unchanged but the samples taken (20 R31; 42 R74, R78,
R80; 43 R87, R91). Where the levels come from is log 2; that `binding` holds the buffer and `prior` the memory
is the model's (log 3, log 11). -/
def Obligations.ReadRunsToItsEnd : Prop :=
  ∀ (addr len : Byte) (s : State), s.phase = .idle → s.host = [] → s.initDone = true →
    len.toNat ≤ 127 →
    ∃ t, exec (.read addr len) s = .next t ∧
      Sys2Proof.core.run (eventCount (.read addr len)) t = .next (afterRead addr len s)

/-- A READ stores the 8·i+j-th sampled level in bit 7-j of byte i of the buffer bound to it, for every i
below LEN, and leaves every other byte of the memory as it was (20 R31, R32, R37; 41 R71; 43 R91). Where the
levels come from is log 2; that the buffer is a base and a count in one memory is log 3. -/
def Obligations.ReadFillsTheBufferMsbFirst : Prop :=
  ∀ (addr len : Byte) (s : State), s.phase = .idle → s.host = [] → s.initDone = true →
    len.toNat ≤ 127 →
    ∃ t u, exec (.read addr len) s = .next t ∧
      Sys2Proof.core.run (eventCount (.read addr len)) t = .next u ∧
      (∀ i j, i < len.toNat → j < 8 →
        (u.memory.byteAt (s.binding.base + i)).getLsbD (7 - j) = s.levelAt (8 * i + j)) ∧
      (∀ a, (a < s.binding.base ∨ s.binding.base + len.toNat ≤ a) →
        u.memory.byteAt a = s.memory.byteAt a)

/-- 20 R38: in every transaction the address bits stand on DO at the first eight rising edges of CL in
the order ADDR[4] to ADDR[7], ADDR[0] to ADDR[3]. -/
def Obligations.AddressBitsGoOutSwappedLsbFirst : Prop :=
  ∀ (i : Instr) (addr len : Byte) (s : State), i = .write addr len ∨ i = .read addr len → s.Inv →
    s.phase = .idle → s.host = [] → s.initDone = true → len.toNat ≤ 127 →
    ∃ t u es, exec i s = .next t ∧ Sys2Proof.core.run (eventCount i) t = .next u ∧
      u.trace = s.trace ++ es ∧
      (doAtRises s.lines es).take 8 =
        [some (addr.getLsbD 4), some (addr.getLsbD 5), some (addr.getLsbD 6), some (addr.getLsbD 7),
          some (addr.getLsbD 0), some (addr.getLsbD 1), some (addr.getLsbD 2), some (addr.getLsbD 3)]

/-- A WRITE puts on DO, at the rising edges of CL after the eight of the address, byte LEN-1 of the
buffer bound to it first and byte 0 last, each least-significant bit first, and no others (20 R36, R37; 42 R77). -/
def Obligations.WritePayloadGoesOutLastByteFirst : Prop :=
  ∀ (addr len : Byte) (s : State), s.Inv → s.phase = .idle → s.host = [] → s.initDone = true →
    len.toNat ≤ 127 →
    ∃ t u es, exec (.write addr len) s = .next t ∧
      Sys2Proof.core.run (eventCount (.write addr len)) t = .next u ∧ u.trace = s.trace ++ es ∧
      (doAtRises s.lines es).drop 8 = (payloadBitsOut (s.memory.bound s.binding) len.toNat).map some

/-- CE is low at both edges of each of the eight address clock pulses and high at both edges of each of the
8·LEN payload pulses; after each event in turn it is low up to the 41st, high from the event that opens the
window to the last before the one that closes it, and low from there on (42 R83, R79). -/
def Obligations.ChipEnableIsHighExactlyForThePayload : Prop :=
  ∀ (i : Instr) (addr len : Byte) (s : State), i = .write addr len ∨ i = .read addr len → s.Inv →
    s.phase = .idle → s.host = [] → s.initDone = true → len.toNat ≤ 127 →
    ∃ t u es, exec i s = .next t ∧ Sys2Proof.core.run (eventCount i) t = .next u ∧
      u.trace = s.trace ++ es ∧ u.lines.outCE = false ∧
      ceAtRises s.lines es =
        List.replicate 8 (some false) ++ List.replicate (8 * len.toNat) (some true) ∧
      ceAtFalls s.lines es =
        List.replicate 8 (some false) ++ List.replicate (8 * len.toNat) (some true) ∧
      pinAfterEach .CE s.lines es =
        List.replicate 41 (some false)
          ++ List.replicate (2 + 41 * len.toNat + (if i = .write addr len then 1 else 0)) (some true)
          ++ List.replicate 2 (some false)

/-- 42 R82: a transaction makes 16·(LEN+1) + 2 waits, (16·LEN + 18)·d microseconds of them, 8·(LEN+1)
clock pulses, 40·(LEN+1) + 5 events in Receive mode and + 6 in Send mode, and LEN buffer events more. -/
def Obligations.TransactionsMakeTheCountedEvents : Prop :=
  ∀ (i : Instr) (addr len : Byte) (s : State), i = .write addr len ∨ i = .read addr len → s.Inv →
    s.phase = .idle → s.host = [] → s.initDone = true → len.toNat ≤ 127 →
    ∃ t u es, exec i s = .next t ∧ Sys2Proof.core.run (eventCount i) t = .next u ∧
      u.trace = s.trace ++ es ∧
      es.countP Event.isWait = 16 * (len.toNat + 1) + 2 ∧
      waitedMicros es = (16 * len.toNat + 18) * s.delay.toNat ∧
      clockPulses s.lines es = 8 * (len.toNat + 1) ∧
      es.countP Event.isBuf = len.toNat ∧
      es.length = 40 * (len.toNat + 1) + (if i = .write addr len then 6 else 5) + len.toNat

/-! ### Rules over every step -/

/-- The reset state meets the invariant (10 R28, R29). That its memory is empty, and so canonical, is the
model's (log 1, log 3). -/
def Obligations.ResetMeetsTheInvariant : Prop := State.reset.Inv

/-- Every step from a state that meets the invariant leads to one that meets it: DI is never an output;
after INIT the directions are set; while Idle CL and CE rest (10 R29); the memory stays canonical (log 3). -/
def Obligations.EveryStepKeepsTheInvariant : Prop :=
  ∀ s s' : State, s.Inv → step s = .next s' → s'.Inv

/-- A line is driven only while it is an output (10 R29 (d)). -/
def Obligations.OnlyOutputsAreDriven : Prop :=
  ∀ (s s' : State) (l : OutLine) (v : Level), s.Inv → step s = .next s' →
    s'.trace = s.trace ++ [.lvl l v] → s.lines.dirOf l = .output

/-- Every step but reset changes the lines exactly as the events it adds to the trace say, adds at most one,
and adds none while Idle (10 R14, 43 R87). A step begun while Idle is also the one that accepts a command,
and a host access: that acceptance makes no event, a held write's included, is the model's reading (log 6,
log 7), and so is that a host's own access makes none (log 9). -/
def Obligations.LinesChangeOnlyByTheirEvents : Prop :=
  ∀ s s' : State, step s = .next s' → s.host.head? ≠ some .assertReset →
    ∃ es, s'.trace = s.trace ++ es ∧ es.length ≤ 1 ∧ s'.lines = replay s.lines es ∧
      (s.busy = false → es = [])

/-- When the block moves while Busy it makes exactly one event, from every state that meets the invariant:
where the host does nothing, lets time pass, waits in WAITIDLE, or is stalled on a held write with whatever
access it is to make next (10 R26; 43 R85; 30 R62). That these are the cases in which the block moves is
the model's (log 4, log 7, log 16). -/
def Obligations.BusyBlockMakesOneEventPerStep : Prop :=
  ∀ s : State, s.Inv → s.busy = true →
    (s.host = [] ∨ (∃ rest, s.host = .tick :: rest) ∨ (s.held = none ∧ ∃ rest, s.host = .waitIdle :: rest) ∨
      (s.held ≠ none ∧ ∃ a rest, s.host = a :: rest ∧ a.ignoresStall = false)) →
    ∃ s' e, step s = .next s' ∧ s'.trace = s.trace ++ [e]

/-- A running command is Busy until the number of steps its opcode and LEN fix is over, and Idle then, with a
held write still held and so lifted next (70 R122, 43 R85): where the host does nothing, waits in WAITIDLE, or
is stalled on a held write with whatever access it is to make next, each after any number of ticks; that
the block moves there is the model's (log 4, log 7, log 16). -/
def Obligations.EveryAcceptedCommandEnds : Prop :=
  ∀ (s : State) (c : Latched) (k : Nat) (b : Byte) (ticks : Nat) (h : List HostAction), s.Inv →
    s.phase = .busy c k b → s.host = List.replicate ticks .tick ++ h →
    (h = [] ∨ (s.held = none ∧ h.head? = some .waitIdle) ∨
      (s.held ≠ none ∧ ∃ a, h.head? = some a ∧ a.ignoresStall = false)) →
    (∃ u, Sys2Proof.core.run ((body c).length - k) s = .next u ∧ u.phase = .idle ∧ u.held = s.held ∧
      u.host = List.replicate (ticks - ((body c).length - k)) .tick ++ h) ∧
    (∀ j, j < (body c).length - k → ∃ u, Sys2Proof.core.run j s = .next u ∧ u.busy = true) ∧
    (∀ (i : Instr) (d : Micros) (buf : Binding), c = latch i d buf → (body c).length = eventCount i)

/-- BUSY falls, but for reset, only in the step of the running command's last event (10 R20, 43 R87). -/
def Obligations.BusyFallsWithTheLastEvent : Prop :=
  ∀ s s' : State, step s = .next s' → s.host.head? ≠ some .assertReset → s.busy = true →
    s'.busy = false →
    ∃ c k b e, s.phase = .busy c k b ∧ k + 1 = (body c).length ∧ s'.trace = s.trace ++ [e]

/-- Only reset clears INIT_DONE, and only the last step of an INIT sets it (10 R21). -/
def Obligations.InitDoneFollowsInitAlone : Prop :=
  ∀ s s' : State, step s = .next s' → s.host.head? ≠ some .assertReset →
    (s.initDone = true → s'.initDone = true) ∧
    (s.initDone = false → s'.initDone = true →
      ∃ c k b, s.phase = .busy c k b ∧ c.op = .init ∧ k + 1 = 10 ∧ s'.phase = .idle)

/-- LINE changes, but for reset, only in the step that completes a LINESTATE, to the level sampled in it (10
R22). Where the level comes from is log 2. -/
def Obligations.LineFollowsLinestateAlone : Prop :=
  ∀ s s' : State, step s = .next s' → s.host.head? ≠ some .assertReset → s'.line ≠ s.line →
    ∃ c b, s.phase = .busy c 0 b ∧ c.op = .linestate ∧ s'.phase = .idle ∧ s'.line = s.levelAt 0

/-- ERR changes, but for reset, only where an idle block takes a CMD write (10 R23). -/
def Obligations.ErrFollowsIssuedCommandsAlone : Prop :=
  ∀ s s' : State, step s = .next s' → s.host.head? ≠ some .assertReset → s'.err ≠ s.err →
    s.busy = false ∧
      ∃ w buf, s.held = some (.cmd w buf) ∨ s.host.head? = some (.writeReg 0 32 w buf)

/-- While a command runs, DELAY and the latched command, its buffer with it, stay as they are, and the position stays or
moves by one (10 R24, R26; 20 R48). -/
def Obligations.DelayAndCommandAreFixedWhileBusy : Prop :=
  ∀ (s s' : State) (c : Latched) (k : Nat) (b : Byte), s.phase = .busy c k b → step s = .next s' →
    s.host.head? ≠ some .assertReset →
    s'.delay = s.delay ∧
      (s'.phase = .idle ∨ s'.phase = .busy c k b ∨ ∃ b', s'.phase = .busy c (k + 1) b')

/-- A running command that is not a READ or a LINESTATE takes no sample of DI: the supplied levels and the
draws stay as they are (42 R81, 43 R88). Both are the model's own fields (log 2). -/
def Obligations.SendAndInitNeverSample : Prop :=
  ∀ (s s' : State) (c : Latched) (k : Nat) (b : Byte), s.phase = .busy c k b →
    (c.op = .init ∨ (c.op = .xfer ∧ c.mode = .send)) → step s = .next s' →
    s'.diInput = s.diInput ∧ s'.draws = s.draws ∧
      ∀ e, s'.trace = s.trace ++ [e] → e.isSmp = false

/-- While a command runs, the memory changes only by a READ's `BufWr` into the buffer bound to it, or by a
host write outside that buffer; a WRITE reads and a READ writes only indices below LEN; INIT and LINESTATE
touch no index (20 R31, R32, R33). That the buffer is a base and a count in one memory, and that a host
write beside it goes on, are the model's choice (log 3); so is which bytes the host does not write: all
`size` bytes bound to the running command, a `size` above 127 and the binding of an INIT or LINESTATE
included, and the LEN bytes where `size` is below LEN. -/
def Obligations.BufferAccessesAreTheCommandsOwn : Prop :=
  ∀ (s s' : State) (c : Latched) (k : Nat) (b : Byte), s.phase = .busy c k b → step s = .next s' →
    (s'.memory = s.memory ∨
      (∃ i v, s'.trace = s.trace ++ [.bufWr i v] ∧ s'.memory = s.memory.store (c.buf.base + i) v) ∨
      ∃ a v, s.host.head? = some (.writeBuffer a v) ∧ c.owns a = false ∧ s'.memory = s.memory.store a v) ∧
    (∀ i v, s'.trace = s.trace ++ [.bufRd i v] →
      c.op = .xfer ∧ c.mode = .send ∧ i < c.len.toNat ∧ v = s.memory.byteAt (c.buf.base + i)) ∧
    (∀ i v, s'.trace = s.trace ++ [.bufWr i v] →
      c.op = .xfer ∧ c.mode = .receive ∧ i < c.len.toNat)

/-- A command given a buffer of at least LEN bytes changes no byte outside it: in a step made while it runs,
every byte of the memory outside the buffer stays, but one that the host itself writes (20 R31, R32; 60
R108). -/
def Obligations.TransfersStayInsideTheirBuffer : Prop :=
  ∀ (s s' : State) (c : Latched) (k : Nat) (b : Byte) (a : Nat), s.phase = .busy c k b →
    c.len.toNat ≤ c.buf.size → (a < c.buf.base ∨ c.buf.base + c.buf.size ≤ a) → step s = .next s' →
    (∀ v, s.host.head? ≠ some (.writeBuffer a v)) → s'.memory.byteAt a = s.memory.byteAt a

/-- Every step keeps the memory's canonical form, the model's own representation of it (20 R31; log 3). -/
def Obligations.EveryStepKeepsTheBufferCanonical : Prop :=
  ∀ s s' : State, s.memory.wf = true → step s = .next s' → s'.memory.wf = true

/-- The one fault is a CHECK that failed: no command, accepted or not, faults (60 R98, R101; 30 R62). That a
failed CHECK is a fault is the model's (log 16). -/
def Obligations.OnlyAFailedCheckFaults : Prop :=
  ∀ (s : State) (f : Fault), step s = .fault f →
    ∃ mask value rest, s.host = .check mask value :: rest ∧ s.status &&& mask ≠ value

/-- From a state that meets the invariant a host that keeps its duties is never refused (60 R108). Which
bytes it must not write while BUSY = 1, and that a write beside them goes on, is the model's choice (log 3);
the duty to bind LEN bytes is none whose breach is refused (log 3). -/
def Obligations.DutifulHostIsNeverRefused : Prop :=
  ∀ s : State, s.Inv → (∀ a, s.host.head? = some a → a.dutiful s = true) →
    ∀ r, step s ≠ .refused r

/-! ### Reset (10 R28; 70 R109, R110) -/

/-- 10 R28: the reset value of every piece of the block's state. -/
def Obligations.ResetStateHasTheListedValues : Prop :=
  State.reset.lines.dirDO = .input ∧ State.reset.lines.dirCL = .input ∧
    State.reset.lines.dirCE = .input ∧ State.reset.lines.dirDI = .input ∧
    State.reset.lines.outDO = false ∧ State.reset.lines.outCL = false ∧
    State.reset.lines.outCE = false ∧ State.reset.busy = false ∧ State.reset.initDone = false ∧
    State.reset.line = false ∧ State.reset.err = .none ∧ State.reset.status = 0#32 ∧
    State.reset.delay = 100#16 ∧ State.reset.phase = .idle ∧
    ∀ (s s' : State) (rest : List HostAction), s.host = .assertReset :: rest → step s = .next s' →
      s'.memory = s.memory

/-- 70 R109: from any state reset gives every piece of the block's state its reset value, drops a held
write and leaves the buffers alone. That the trace and what the outside world does next stay is the
model's (log 3, log 4, log 9, log 11). -/
def Obligations.ResetWinsFromAnyState : Prop :=
  ∀ (s : State) (rest : List HostAction), s.host = .assertReset :: rest →
    step s = .next { State.reset with
      memory := s.memory, trace := s.trace, host := rest, diInput := s.diInput, draws := s.draws,
      answer := s.answer, binding := s.binding, prior := s.prior, peeks := s.peeks }

/-- Reset after any j of a READ's events adds no event, puts the lines, the registers and the hidden state
at their reset values with no write held, and leaves the memory with the received bytes stored at indices 0
to n-1 of the bound buffer, n the number of `BufWr` events made so far, at most LEN, and every other byte as
it was (70 R109, R110; 20 R31). Where the levels come from is log 2; that the j steps come after a step of
acceptance, which makes no event, is log 6. -/
def Obligations.ResetCutsAReadAtAPrefix : Prop :=
  ∀ (addr len : Byte) (s : State) (j : Nat), s.phase = .idle → s.host = [] → s.initDone = true →
    len.toNat ≤ 127 → j < eventCount (.read addr len) →
    ∃ t u v es, exec (.read addr len) s = .next t ∧ Sys2Proof.core.run j t = .next u ∧
      u.trace = s.trace ++ es ∧ es.length = j ∧
      step { u with host := [.assertReset] } = .next v ∧ v.trace = u.trace ∧
      v.lines = Lines.reset ∧ v.phase = .idle ∧ v.initDone = false ∧ v.line = false ∧ v.err = .none ∧
      v.delay = 100#16 ∧ v.held = none ∧ es.countP Event.isBufWr ≤ len.toNat ∧
      v.memory = storeReceived s.levelAt s.binding s.memory (es.countP Event.isBufWr)

/-! ### Time (00 R11, 40 R66) -/

/-- However a trace is stamped with times, from its first event's start to its last event's stop lie at
least the microseconds it waits (40 R66, 70 R121), whatever clock the time base is made from (92 D10). That the
gap of 40 R67 is asked beside a wait too is the model's (log 10). -/
def Obligations.StampedTracesLastTheirWaits : Prop :=
  ∀ (x : Stamped) (xs : List Stamped), Timed (x :: xs) →
    x.start + waitedMicros ((x :: xs).map Stamped.event) ≤
      (List.getLast (x :: xs) (List.cons_ne_nil x xs)).stop
end

