-- ==== Sys2Proof/Laws/Memory.lean ====
section
/-! SUPPORT. The host's memory: read after write, and that writing keeps the canonical form. -/

namespace Sys2Proof.Machine

theorem lookup_store_same (m : Memory) (i : Nat) (v : Byte) : (m.store i v).lookup i = some v := by
  induction m with
  | nil => simp [Memory.store, Memory.lookup]
  | cons c m ih =>
    obtain ⟨a, b⟩ := c
    simp only [Memory.store]
    split
    · simp [Memory.lookup]
    · split
      · simp [Memory.lookup]
      · simp [Memory.lookup, ih, Ne.symm ‹¬i = a›]

theorem lookup_store_other (m : Memory) (i j : Nat) (v : Byte) (h : j ≠ i) :
    (m.store i v).lookup j = m.lookup j := by
  induction m with
  | nil => simp [Memory.store, Memory.lookup, Ne.symm h]
  | cons c m ih =>
    obtain ⟨a, b⟩ := c
    simp only [Memory.store]
    split
    · simp [Memory.lookup, Ne.symm h]
    · split
      · subst_vars
        simp [Memory.lookup, Ne.symm h]
      · simp [Memory.lookup, ih]

@[simp] theorem byteAt_store_same (m : Memory) (i : Nat) (v : Byte) : (m.store i v).byteAt i = v := by
  simp [Memory.byteAt, lookup_store_same]

theorem byteAt_store_other (m : Memory) (i j : Nat) (v : Byte) (h : j ≠ i) :
    (m.store i v).byteAt j = m.byteAt j := by
  simp [Memory.byteAt, lookup_store_other m i j v h]

theorem risesFrom_store (m : Memory) (b i : Nat) (v : Byte) (hb : b ≤ i) (h : m.risesFrom b = true) :
    (m.store i v).risesFrom b = true := by
  induction m generalizing b with
  | nil => simp [Memory.store, Memory.risesFrom, hb]
  | cons c m ih =>
    obtain ⟨a, w⟩ := c
    simp only [Memory.risesFrom, Bool.and_eq_true, decide_eq_true_eq] at h
    simp only [Memory.store]
    split
    · simp only [Memory.risesFrom, Bool.and_eq_true, decide_eq_true_eq]
      exact ⟨hb, by omega, h.2⟩
    · split
      · subst_vars
        simp only [Memory.risesFrom, Bool.and_eq_true, decide_eq_true_eq]
        exact ⟨h.1, h.2⟩
      · simp only [Memory.risesFrom, Bool.and_eq_true, decide_eq_true_eq]
        exact ⟨h.1, ih (a + 1) (by omega) h.2⟩

/-- A write keeps the canonical form. -/
theorem wf_store (m : Memory) (i : Nat) (v : Byte) (h : m.wf = true) : (m.store i v).wf = true :=
  risesFrom_store m 0 i v (Nat.zero_le i) h

/-- The last of two writes to one address is the one that counts. -/
theorem store_store_same (m : Memory) (i : Nat) (v w : Byte) :
    (m.store i v).store i w = m.store i w := by
  induction m with
  | nil => simp [Memory.store]
  | cons c m ih =>
    obtain ⟨a, b⟩ := c
    by_cases h1 : i < a
    · simp [Memory.store, h1]
    · by_cases h2 : i = a
      · simp [Memory.store, h2]
      · simp [Memory.store, h1, h2, ih]

theorem lookup_below (m : Memory) (b i : Nat) (h : m.risesFrom b = true) (hi : i < b) :
    m.lookup i = none := by
  induction m generalizing b with
  | nil => rfl
  | cons c m ih =>
    obtain ⟨a, w⟩ := c
    simp only [Memory.risesFrom, Bool.and_eq_true, decide_eq_true_eq] at h
    simp only [Memory.lookup, show ¬a = i by omega, if_false]
    exact ih (a + 1) h.2 (by omega)

/-- In canonical form, equal contents are equal lists. -/
theorem eq_of_lookup_eq (m n : Memory) (b : Nat) (hm : m.risesFrom b = true) (hn : n.risesFrom b = true)
    (h : ∀ i, m.lookup i = n.lookup i) : m = n := by
  induction m generalizing n b with
  | nil =>
    cases n with
    | nil => rfl
    | cons c n => simpa [Memory.lookup] using h c.1
  | cons c m ih =>
    obtain ⟨a, v⟩ := c
    cases n with
    | nil => simpa [Memory.lookup] using h a
    | cons e n =>
      obtain ⟨a', v'⟩ := e
      simp only [Memory.risesFrom, Bool.and_eq_true, decide_eq_true_eq] at hm hn
      have haa : a = a' := by
        rcases Nat.lt_trichotomy a a' with hlt | heq | hgt
        · have := h a
          rw [Memory.lookup, if_pos rfl, Memory.lookup, if_neg (by omega),
            lookup_below n (a' + 1) a hn.2 (by omega)] at this
          cases this
        · exact heq
        · have := h a'
          rw [Memory.lookup, if_neg (by omega), lookup_below m (a + 1) a' hm.2 (by omega),
            Memory.lookup, if_pos rfl] at this
          cases this
      subst haa
      have hv := h a
      simp only [Memory.lookup, if_true, Option.some.injEq] at hv
      subst hv
      refine congrArg _ (ih n (a + 1) hm.2 hn.2 fun i => ?_)
      by_cases hi : a = i
      · subst hi
        rw [lookup_below m (a + 1) a hm.2 (by omega), lookup_below n (a + 1) a hn.2 (by omega)]
      · simpa [Memory.lookup, hi] using h i

end Sys2Proof.Machine
end

