-- ==== Sys2Proof/Laws/State.lean ====
section
/-! SUPPORT. What each update of the state leaves in each field. -/

namespace Sys2Proof.Machine

/-! ### `emit` -/

@[simp] theorem emit_lines (e : Event) (s : State) : (emit e s).lines = s.lines := rfl
@[simp] theorem emit_initDone (e : Event) (s : State) : (emit e s).initDone = s.initDone := rfl
@[simp] theorem emit_line (e : Event) (s : State) : (emit e s).line = s.line := rfl
@[simp] theorem emit_err (e : Event) (s : State) : (emit e s).err = s.err := rfl
@[simp] theorem emit_delay (e : Event) (s : State) : (emit e s).delay = s.delay := rfl
@[simp] theorem emit_phase (e : Event) (s : State) : (emit e s).phase = s.phase := rfl
@[simp] theorem emit_held (e : Event) (s : State) : (emit e s).held = s.held := rfl
@[simp] theorem emit_memory (e : Event) (s : State) : (emit e s).memory = s.memory := rfl
@[simp] theorem emit_trace (e : Event) (s : State) : (emit e s).trace = s.trace ++ [e] := rfl
@[simp] theorem emit_host (e : Event) (s : State) : (emit e s).host = s.host := rfl
@[simp] theorem emit_diInput (e : Event) (s : State) : (emit e s).diInput = s.diInput := rfl
@[simp] theorem emit_draws (e : Event) (s : State) : (emit e s).draws = s.draws := rfl
@[simp] theorem emit_answer (e : Event) (s : State) : (emit e s).answer = s.answer := rfl
@[simp] theorem emit_binding (e : Event) (s : State) : (emit e s).binding = s.binding := rfl
@[simp] theorem emit_prior (e : Event) (s : State) : (emit e s).prior = s.prior := rfl
@[simp] theorem emit_peeks (e : Event) (s : State) : (emit e s).peeks = s.peeks := rfl

/-! ### `drive` -/

@[simp] theorem drive_lines (l : OutLine) (v : Level) (s : State) : (drive l v s).lines = s.lines.setOut l v := rfl
@[simp] theorem drive_initDone (l : OutLine) (v : Level) (s : State) : (drive l v s).initDone = s.initDone := rfl
@[simp] theorem drive_line (l : OutLine) (v : Level) (s : State) : (drive l v s).line = s.line := rfl
@[simp] theorem drive_err (l : OutLine) (v : Level) (s : State) : (drive l v s).err = s.err := rfl
@[simp] theorem drive_delay (l : OutLine) (v : Level) (s : State) : (drive l v s).delay = s.delay := rfl
@[simp] theorem drive_phase (l : OutLine) (v : Level) (s : State) : (drive l v s).phase = s.phase := rfl
@[simp] theorem drive_held (l : OutLine) (v : Level) (s : State) : (drive l v s).held = s.held := rfl
@[simp] theorem drive_memory (l : OutLine) (v : Level) (s : State) : (drive l v s).memory = s.memory := rfl
@[simp] theorem drive_trace (l : OutLine) (v : Level) (s : State) : (drive l v s).trace = s.trace ++ [.lvl l v] := rfl
@[simp] theorem drive_host (l : OutLine) (v : Level) (s : State) : (drive l v s).host = s.host := rfl
@[simp] theorem drive_diInput (l : OutLine) (v : Level) (s : State) : (drive l v s).diInput = s.diInput := rfl
@[simp] theorem drive_draws (l : OutLine) (v : Level) (s : State) : (drive l v s).draws = s.draws := rfl
@[simp] theorem drive_answer (l : OutLine) (v : Level) (s : State) : (drive l v s).answer = s.answer := rfl
@[simp] theorem drive_binding (l : OutLine) (v : Level) (s : State) : (drive l v s).binding = s.binding := rfl
@[simp] theorem drive_prior (l : OutLine) (v : Level) (s : State) : (drive l v s).prior = s.prior := rfl
@[simp] theorem drive_peeks (l : OutLine) (v : Level) (s : State) : (drive l v s).peeks = s.peeks := rfl

/-! ### `setDir` -/

@[simp] theorem setDir_lines (l : Line) (m : Dir) (s : State) : (setDir l m s).lines = s.lines.setDir l m := rfl
@[simp] theorem setDir_initDone (l : Line) (m : Dir) (s : State) : (setDir l m s).initDone = s.initDone := rfl
@[simp] theorem setDir_line (l : Line) (m : Dir) (s : State) : (setDir l m s).line = s.line := rfl
@[simp] theorem setDir_err (l : Line) (m : Dir) (s : State) : (setDir l m s).err = s.err := rfl
@[simp] theorem setDir_delay (l : Line) (m : Dir) (s : State) : (setDir l m s).delay = s.delay := rfl
@[simp] theorem setDir_phase (l : Line) (m : Dir) (s : State) : (setDir l m s).phase = s.phase := rfl
@[simp] theorem setDir_held (l : Line) (m : Dir) (s : State) : (setDir l m s).held = s.held := rfl
@[simp] theorem setDir_memory (l : Line) (m : Dir) (s : State) : (setDir l m s).memory = s.memory := rfl
@[simp] theorem setDir_trace (l : Line) (m : Dir) (s : State) : (setDir l m s).trace = s.trace ++ [.dir l m] := rfl
@[simp] theorem setDir_host (l : Line) (m : Dir) (s : State) : (setDir l m s).host = s.host := rfl
@[simp] theorem setDir_diInput (l : Line) (m : Dir) (s : State) : (setDir l m s).diInput = s.diInput := rfl
@[simp] theorem setDir_draws (l : Line) (m : Dir) (s : State) : (setDir l m s).draws = s.draws := rfl
@[simp] theorem setDir_answer (l : Line) (m : Dir) (s : State) : (setDir l m s).answer = s.answer := rfl
@[simp] theorem setDir_binding (l : Line) (m : Dir) (s : State) : (setDir l m s).binding = s.binding := rfl
@[simp] theorem setDir_prior (l : Line) (m : Dir) (s : State) : (setDir l m s).prior = s.prior := rfl
@[simp] theorem setDir_peeks (l : Line) (m : Dir) (s : State) : (setDir l m s).peeks = s.peeks := rfl

/-! ### `waitFor` -/

@[simp] theorem waitFor_lines (d : Micros) (s : State) : (waitFor d s).lines = s.lines := rfl
@[simp] theorem waitFor_initDone (d : Micros) (s : State) : (waitFor d s).initDone = s.initDone := rfl
@[simp] theorem waitFor_line (d : Micros) (s : State) : (waitFor d s).line = s.line := rfl
@[simp] theorem waitFor_err (d : Micros) (s : State) : (waitFor d s).err = s.err := rfl
@[simp] theorem waitFor_delay (d : Micros) (s : State) : (waitFor d s).delay = s.delay := rfl
@[simp] theorem waitFor_phase (d : Micros) (s : State) : (waitFor d s).phase = s.phase := rfl
@[simp] theorem waitFor_held (d : Micros) (s : State) : (waitFor d s).held = s.held := rfl
@[simp] theorem waitFor_memory (d : Micros) (s : State) : (waitFor d s).memory = s.memory := rfl
@[simp] theorem waitFor_trace (d : Micros) (s : State) : (waitFor d s).trace = s.trace ++ [.wait d] := rfl
@[simp] theorem waitFor_host (d : Micros) (s : State) : (waitFor d s).host = s.host := rfl
@[simp] theorem waitFor_diInput (d : Micros) (s : State) : (waitFor d s).diInput = s.diInput := rfl
@[simp] theorem waitFor_draws (d : Micros) (s : State) : (waitFor d s).draws = s.draws := rfl
@[simp] theorem waitFor_answer (d : Micros) (s : State) : (waitFor d s).answer = s.answer := rfl
@[simp] theorem waitFor_binding (d : Micros) (s : State) : (waitFor d s).binding = s.binding := rfl
@[simp] theorem waitFor_prior (d : Micros) (s : State) : (waitFor d s).prior = s.prior := rfl
@[simp] theorem waitFor_peeks (d : Micros) (s : State) : (waitFor d s).peeks = s.peeks := rfl

/-! ### `memRead` -/

@[simp] theorem memRead_lines (buf : Binding) (i : Nat) (s : State) : ((memRead buf i s).2).lines = s.lines := rfl
@[simp] theorem memRead_initDone (buf : Binding) (i : Nat) (s : State) : ((memRead buf i s).2).initDone = s.initDone := rfl
@[simp] theorem memRead_line (buf : Binding) (i : Nat) (s : State) : ((memRead buf i s).2).line = s.line := rfl
@[simp] theorem memRead_err (buf : Binding) (i : Nat) (s : State) : ((memRead buf i s).2).err = s.err := rfl
@[simp] theorem memRead_delay (buf : Binding) (i : Nat) (s : State) : ((memRead buf i s).2).delay = s.delay := rfl
@[simp] theorem memRead_phase (buf : Binding) (i : Nat) (s : State) : ((memRead buf i s).2).phase = s.phase := rfl
@[simp] theorem memRead_held (buf : Binding) (i : Nat) (s : State) : ((memRead buf i s).2).held = s.held := rfl
@[simp] theorem memRead_memory (buf : Binding) (i : Nat) (s : State) : ((memRead buf i s).2).memory = s.memory := rfl
@[simp] theorem memRead_trace (buf : Binding) (i : Nat) (s : State) : ((memRead buf i s).2).trace = s.trace ++ [.bufRd i (s.memory.bound buf i)] := rfl
@[simp] theorem memRead_host (buf : Binding) (i : Nat) (s : State) : ((memRead buf i s).2).host = s.host := rfl
@[simp] theorem memRead_diInput (buf : Binding) (i : Nat) (s : State) : ((memRead buf i s).2).diInput = s.diInput := rfl
@[simp] theorem memRead_draws (buf : Binding) (i : Nat) (s : State) : ((memRead buf i s).2).draws = s.draws := rfl
@[simp] theorem memRead_answer (buf : Binding) (i : Nat) (s : State) : ((memRead buf i s).2).answer = s.answer := rfl
@[simp] theorem memRead_binding (buf : Binding) (i : Nat) (s : State) : ((memRead buf i s).2).binding = s.binding := rfl
@[simp] theorem memRead_prior (buf : Binding) (i : Nat) (s : State) : ((memRead buf i s).2).prior = s.prior := rfl
@[simp] theorem memRead_peeks (buf : Binding) (i : Nat) (s : State) : ((memRead buf i s).2).peeks = s.peeks := rfl

/-! ### `memWrite` -/

@[simp] theorem memWrite_lines (buf : Binding) (i : Nat) (v : Byte) (s : State) : (memWrite buf i v s).lines = s.lines := rfl
@[simp] theorem memWrite_initDone (buf : Binding) (i : Nat) (v : Byte) (s : State) : (memWrite buf i v s).initDone = s.initDone := rfl
@[simp] theorem memWrite_line (buf : Binding) (i : Nat) (v : Byte) (s : State) : (memWrite buf i v s).line = s.line := rfl
@[simp] theorem memWrite_err (buf : Binding) (i : Nat) (v : Byte) (s : State) : (memWrite buf i v s).err = s.err := rfl
@[simp] theorem memWrite_delay (buf : Binding) (i : Nat) (v : Byte) (s : State) : (memWrite buf i v s).delay = s.delay := rfl
@[simp] theorem memWrite_phase (buf : Binding) (i : Nat) (v : Byte) (s : State) : (memWrite buf i v s).phase = s.phase := rfl
@[simp] theorem memWrite_held (buf : Binding) (i : Nat) (v : Byte) (s : State) : (memWrite buf i v s).held = s.held := rfl
@[simp] theorem memWrite_memory (buf : Binding) (i : Nat) (v : Byte) (s : State) : (memWrite buf i v s).memory = s.memory.store (buf.base + i) v := rfl
@[simp] theorem memWrite_trace (buf : Binding) (i : Nat) (v : Byte) (s : State) : (memWrite buf i v s).trace = s.trace ++ [.bufWr i v] := rfl
@[simp] theorem memWrite_host (buf : Binding) (i : Nat) (v : Byte) (s : State) : (memWrite buf i v s).host = s.host := rfl
@[simp] theorem memWrite_diInput (buf : Binding) (i : Nat) (v : Byte) (s : State) : (memWrite buf i v s).diInput = s.diInput := rfl
@[simp] theorem memWrite_draws (buf : Binding) (i : Nat) (v : Byte) (s : State) : (memWrite buf i v s).draws = s.draws := rfl
@[simp] theorem memWrite_answer (buf : Binding) (i : Nat) (v : Byte) (s : State) : (memWrite buf i v s).answer = s.answer := rfl
@[simp] theorem memWrite_binding (buf : Binding) (i : Nat) (v : Byte) (s : State) : (memWrite buf i v s).binding = s.binding := rfl
@[simp] theorem memWrite_prior (buf : Binding) (i : Nat) (v : Byte) (s : State) : (memWrite buf i v s).prior = s.prior := rfl
@[simp] theorem memWrite_peeks (buf : Binding) (i : Nat) (v : Byte) (s : State) : (memWrite buf i v s).peeks = s.peeks := rfl

/-! ### `reject` -/

@[simp] theorem reject_lines (e : ErrCode) (s : State) : (reject e s).lines = s.lines := rfl
@[simp] theorem reject_initDone (e : ErrCode) (s : State) : (reject e s).initDone = s.initDone := rfl
@[simp] theorem reject_line (e : ErrCode) (s : State) : (reject e s).line = s.line := rfl
@[simp] theorem reject_err (e : ErrCode) (s : State) : (reject e s).err = e := rfl
@[simp] theorem reject_delay (e : ErrCode) (s : State) : (reject e s).delay = s.delay := rfl
@[simp] theorem reject_phase (e : ErrCode) (s : State) : (reject e s).phase = s.phase := rfl
@[simp] theorem reject_held (e : ErrCode) (s : State) : (reject e s).held = s.held := rfl
@[simp] theorem reject_memory (e : ErrCode) (s : State) : (reject e s).memory = s.memory := rfl
@[simp] theorem reject_trace (e : ErrCode) (s : State) : (reject e s).trace = s.trace := rfl
@[simp] theorem reject_host (e : ErrCode) (s : State) : (reject e s).host = s.host := rfl
@[simp] theorem reject_diInput (e : ErrCode) (s : State) : (reject e s).diInput = s.diInput := rfl
@[simp] theorem reject_draws (e : ErrCode) (s : State) : (reject e s).draws = s.draws := rfl
@[simp] theorem reject_answer (e : ErrCode) (s : State) : (reject e s).answer = s.answer := rfl
@[simp] theorem reject_binding (e : ErrCode) (s : State) : (reject e s).binding = s.binding := rfl
@[simp] theorem reject_prior (e : ErrCode) (s : State) : (reject e s).prior = s.prior := rfl
@[simp] theorem reject_peeks (e : ErrCode) (s : State) : (reject e s).peeks = s.peeks := rfl

/-! ### `accept` -/

@[simp] theorem accept_lines (i : Instr) (s : State) : (accept i s).lines = s.lines := rfl
@[simp] theorem accept_initDone (i : Instr) (s : State) : (accept i s).initDone = s.initDone := rfl
@[simp] theorem accept_line (i : Instr) (s : State) : (accept i s).line = s.line := rfl
@[simp] theorem accept_err (i : Instr) (s : State) : (accept i s).err = .none := rfl
@[simp] theorem accept_delay (i : Instr) (s : State) : (accept i s).delay = s.delay := rfl
@[simp] theorem accept_phase (i : Instr) (s : State) : (accept i s).phase = .busy (latch i s.delay s.binding) 0 (nibbleSwap (latch i s.delay s.binding).addr) := rfl
@[simp] theorem accept_held (i : Instr) (s : State) : (accept i s).held = s.held := rfl
@[simp] theorem accept_memory (i : Instr) (s : State) : (accept i s).memory = s.memory := rfl
@[simp] theorem accept_trace (i : Instr) (s : State) : (accept i s).trace = s.trace := rfl
@[simp] theorem accept_host (i : Instr) (s : State) : (accept i s).host = s.host := rfl
@[simp] theorem accept_diInput (i : Instr) (s : State) : (accept i s).diInput = s.diInput := rfl
@[simp] theorem accept_draws (i : Instr) (s : State) : (accept i s).draws = s.draws := rfl
@[simp] theorem accept_answer (i : Instr) (s : State) : (accept i s).answer = s.answer := rfl
@[simp] theorem accept_binding (i : Instr) (s : State) : (accept i s).binding = s.binding := rfl
@[simp] theorem accept_prior (i : Instr) (s : State) : (accept i s).prior = s.memory := rfl
@[simp] theorem accept_peeks (i : Instr) (s : State) : (accept i s).peeks = s.peeks := rfl

/-! ### `complete` -/

@[simp] theorem complete_lines (c : Latched) (s : State) : (complete c s).lines = s.lines := rfl
@[simp] theorem complete_initDone (c : Latched) (s : State) : (complete c s).initDone = (s.initDone || decide (c.op = .init)) := rfl
@[simp] theorem complete_line (c : Latched) (s : State) : (complete c s).line = s.line := rfl
@[simp] theorem complete_err (c : Latched) (s : State) : (complete c s).err = s.err := rfl
@[simp] theorem complete_delay (c : Latched) (s : State) : (complete c s).delay = s.delay := rfl
@[simp] theorem complete_phase (c : Latched) (s : State) : (complete c s).phase = .idle := rfl
@[simp] theorem complete_held (c : Latched) (s : State) : (complete c s).held = s.held := rfl
@[simp] theorem complete_memory (c : Latched) (s : State) : (complete c s).memory = s.memory := rfl
@[simp] theorem complete_trace (c : Latched) (s : State) : (complete c s).trace = s.trace := rfl
@[simp] theorem complete_host (c : Latched) (s : State) : (complete c s).host = s.host := rfl
@[simp] theorem complete_diInput (c : Latched) (s : State) : (complete c s).diInput = s.diInput := rfl
@[simp] theorem complete_draws (c : Latched) (s : State) : (complete c s).draws = s.draws := rfl
@[simp] theorem complete_answer (c : Latched) (s : State) : (complete c s).answer = s.answer := rfl
@[simp] theorem complete_binding (c : Latched) (s : State) : (complete c s).binding = s.binding := rfl
@[simp] theorem complete_prior (c : Latched) (s : State) : (complete c s).prior = s.prior := rfl
@[simp] theorem complete_peeks (c : Latched) (s : State) : (complete c s).peeks = s.peeks := rfl

/-! ### `resetBlock` -/

@[simp] theorem resetBlock_lines (s : State) : (resetBlock s).lines = Lines.reset := rfl
@[simp] theorem resetBlock_initDone (s : State) : (resetBlock s).initDone = false := rfl
@[simp] theorem resetBlock_line (s : State) : (resetBlock s).line = false := rfl
@[simp] theorem resetBlock_err (s : State) : (resetBlock s).err = .none := rfl
@[simp] theorem resetBlock_delay (s : State) : (resetBlock s).delay = Config.delayReset := rfl
@[simp] theorem resetBlock_phase (s : State) : (resetBlock s).phase = .idle := rfl
@[simp] theorem resetBlock_held (s : State) : (resetBlock s).held = none := rfl
@[simp] theorem resetBlock_memory (s : State) : (resetBlock s).memory = s.memory := rfl
@[simp] theorem resetBlock_trace (s : State) : (resetBlock s).trace = s.trace := rfl
@[simp] theorem resetBlock_host (s : State) : (resetBlock s).host = s.host := rfl
@[simp] theorem resetBlock_diInput (s : State) : (resetBlock s).diInput = s.diInput := rfl
@[simp] theorem resetBlock_draws (s : State) : (resetBlock s).draws = s.draws := rfl
@[simp] theorem resetBlock_answer (s : State) : (resetBlock s).answer = s.answer := rfl
@[simp] theorem resetBlock_binding (s : State) : (resetBlock s).binding = s.binding := rfl
@[simp] theorem resetBlock_prior (s : State) : (resetBlock s).prior = s.prior := rfl
@[simp] theorem resetBlock_peeks (s : State) : (resetBlock s).peeks = s.peeks := rfl

/-! ### `takeLevels` -/

@[simp] theorem takeLevels_lines (n : Nat) (s : State) : (takeLevels n s).lines = s.lines := rfl
@[simp] theorem takeLevels_initDone (n : Nat) (s : State) : (takeLevels n s).initDone = s.initDone := rfl
@[simp] theorem takeLevels_line (n : Nat) (s : State) : (takeLevels n s).line = s.line := rfl
@[simp] theorem takeLevels_err (n : Nat) (s : State) : (takeLevels n s).err = s.err := rfl
@[simp] theorem takeLevels_delay (n : Nat) (s : State) : (takeLevels n s).delay = s.delay := rfl
@[simp] theorem takeLevels_phase (n : Nat) (s : State) : (takeLevels n s).phase = s.phase := rfl
@[simp] theorem takeLevels_held (n : Nat) (s : State) : (takeLevels n s).held = s.held := rfl
@[simp] theorem takeLevels_memory (n : Nat) (s : State) : (takeLevels n s).memory = s.memory := rfl
@[simp] theorem takeLevels_trace (n : Nat) (s : State) : (takeLevels n s).trace = s.trace := rfl
@[simp] theorem takeLevels_host (n : Nat) (s : State) : (takeLevels n s).host = s.host := rfl
@[simp] theorem takeLevels_diInput (n : Nat) (s : State) : (takeLevels n s).diInput = s.diInput.drop n := rfl
@[simp] theorem takeLevels_draws (n : Nat) (s : State) : (takeLevels n s).draws = s.draws + (n - s.diInput.length) := rfl
@[simp] theorem takeLevels_answer (n : Nat) (s : State) : (takeLevels n s).answer = s.answer := rfl
@[simp] theorem takeLevels_binding (n : Nat) (s : State) : (takeLevels n s).binding = s.binding := rfl
@[simp] theorem takeLevels_prior (n : Nat) (s : State) : (takeLevels n s).prior = s.prior := rfl
@[simp] theorem takeLevels_peeks (n : Nat) (s : State) : (takeLevels n s).peeks = s.peeks := rfl

/-! ### `takeLevel` and `sample` -/

theorem takeLevel_eq (s : State) : takeLevel s = takeLevels 1 s := by
  unfold takeLevel takeLevels
  split <;> rename_i h <;> simp [h]

theorem nextLevel_eq (s : State) : nextLevel s = s.levelAt 0 := by
  unfold nextLevel State.levelAt
  split <;> rename_i h <;> simp [h]

theorem sample_eq (s : State) :
    sample s = (s.levelAt 0, emit (.smp .DI (s.levelAt 0)) (takeLevels 1 s)) := by
  simp only [sample, nextLevel_eq, takeLevel_eq]

theorem takeLevels_takeLevels (m n : Nat) (s : State) :
    takeLevels n (takeLevels m s) = takeLevels (m + n) s := by
  simp only [takeLevels, List.drop_drop, List.length_drop, State.mk.injEq, true_and, and_true]
  omega

theorem levelAt_takeLevels (m n : Nat) (s : State) :
    (takeLevels m s).levelAt n = s.levelAt (m + n) := by
  simp only [State.levelAt, takeLevels_diInput, takeLevels_draws, List.length_drop, List.getElem_drop]
  by_cases h : m + n < s.diInput.length
  · simp [h, show n < s.diInput.length - m by omega]
  · rw [dif_neg (by omega), dif_neg h]
    congr 1
    omega

/-! ### Lines -/

@[simp] theorem setOut_out_self (ln : Lines) (l : OutLine) (v : Level) : (ln.setOut l v).out l = v := by
  cases l <;> rfl

theorem setOut_out_other (ln : Lines) (l l' : OutLine) (v : Level) (h : l' ≠ l) :
    (ln.setOut l v).out l' = ln.out l' := by
  cases l <;> cases l' <;> first | rfl | exact absurd rfl h

@[simp] theorem setOut_dirOf (ln : Lines) (l l' : OutLine) (v : Level) :
    (ln.setOut l v).dirOf l' = ln.dirOf l' := by
  cases l <;> rfl

@[simp] theorem setOut_dirDI (ln : Lines) (l : OutLine) (v : Level) : (ln.setOut l v).dirDI = ln.dirDI := by
  cases l <;> rfl

@[simp] theorem setOut_dirsSet (ln : Lines) (l : OutLine) (v : Level) :
    (ln.setOut l v).dirsSet = ln.dirsSet := by
  cases l <;> rfl

@[simp] theorem setDir_out (ln : Lines) (l : Line) (l' : OutLine) (m : Dir) :
    (ln.setDir l m).out l' = ln.out l' := by
  cases l <;> rfl

end Sys2Proof.Machine
end

