-- ==== Sys2Proof/Laws/Sequence.lean ====
section
/-! SUPPORT. Running a command's body: the length of each body, what the block's step does, and the run
of a body as one fold over its primitives. -/

namespace Sys2Proof.Machine

/-! ### Lengths -/

@[simp] theorem sendByteOps_length : sendByteOps.length = 40 := rfl
@[simp] theorem receiveByteOps_length : receiveByteOps.length = 40 := rfl
@[simp] theorem initOps_length : initOps.length = 10 := rfl
@[simp] theorem linestateOps_length : linestateOps.length = 1 := rfl

@[simp] theorem sendPayloadOps_length (n : Nat) : (sendPayloadOps n).length = 41 * n := by
  induction n with
  | zero => rfl
  | succ n ih =>
    simp only [sendPayloadOps, List.length_cons, List.length_append, sendByteOps_length, ih]
    omega

@[simp] theorem receivePayloadOps_length (n : Nat) : (receivePayloadOps n).length = 41 * n := by
  induction n with
  | zero => rfl
  | succ n ih =>
    simp only [receivePayloadOps, List.length_append, List.length_cons, List.length_nil,
      receiveByteOps_length, ih]
    omega

/-! ### Primitives -/

/-- The event a primitive makes in a state, of a latched command, with the byte being shifted. -/
def eventOf (op : MicroOp) (c : Latched) (shift : Byte) (s : State) : Event :=
  match op with
  | .setDir l m => .dir l m
  | .drive l v => .lvl l v
  | .shiftOut i => .lvl .DO (shift.getLsbD i)
  | .wait => .wait c.delay
  | .shiftIn _ | .sampleLine => .smp .DI (s.levelAt 0)
  | .bufRead i => .bufRd i (s.memory.bound c.buf i)
  | .bufWrite i => .bufWr i shift

/-- Each primitive makes exactly one event. -/
theorem perform_trace (op : MicroOp) (c : Latched) (b : Byte) (s : State) :
    (perform op c b s).1.trace = s.trace ++ [eventOf op c b s] := by
  cases op <;> simp [perform, eventOf, sample_eq]

theorem perform_lines (op : MicroOp) (c : Latched) (b : Byte) (s : State) :
    (perform op c b s).1.lines = match op with
      | .setDir l m => s.lines.setDir l m
      | .drive l v => s.lines.setOut l v
      | .shiftOut i => s.lines.setOut .DO (b.getLsbD i)
      | _ => s.lines := by
  cases op <;> simp [perform, sample_eq]

theorem perform_memory (op : MicroOp) (c : Latched) (b : Byte) (s : State) :
    (perform op c b s).1.memory = match op with
      | .bufWrite i => s.memory.store (c.buf.base + i) b
      | _ => s.memory := by
  cases op <;> simp [perform, sample_eq]

theorem perform_line (op : MicroOp) (c : Latched) (b : Byte) (s : State) :
    (perform op c b s).1.line = match op with
      | .sampleLine => s.levelAt 0
      | _ => s.line := by
  cases op <;> simp [perform, sample_eq]

@[simp] theorem perform_initDone (op : MicroOp) (c : Latched) (b : Byte) (s : State) :
    (perform op c b s).1.initDone = s.initDone := by
  cases op <;> simp [perform, sample_eq]

@[simp] theorem perform_err (op : MicroOp) (c : Latched) (b : Byte) (s : State) :
    (perform op c b s).1.err = s.err := by
  cases op <;> simp [perform, sample_eq]

@[simp] theorem perform_delay (op : MicroOp) (c : Latched) (b : Byte) (s : State) :
    (perform op c b s).1.delay = s.delay := by
  cases op <;> simp [perform, sample_eq]

@[simp] theorem perform_held (op : MicroOp) (c : Latched) (b : Byte) (s : State) :
    (perform op c b s).1.held = s.held := by
  cases op <;> simp [perform, sample_eq]

@[simp] theorem perform_host (op : MicroOp) (c : Latched) (b : Byte) (s : State) :
    (perform op c b s).1.host = s.host := by
  cases op <;> simp [perform, sample_eq]

@[simp] theorem perform_prior (op : MicroOp) (c : Latched) (b : Byte) (s : State) :
    (perform op c b s).1.prior = s.prior := by
  cases op <;> simp [perform, sample_eq]

@[simp] theorem perform_binding (op : MicroOp) (c : Latched) (b : Byte) (s : State) :
    (perform op c b s).1.binding = s.binding := by
  cases op <;> simp [perform, sample_eq]

@[simp] theorem perform_answer (op : MicroOp) (c : Latched) (b : Byte) (s : State) :
    (perform op c b s).1.answer = s.answer := by
  cases op <;> simp [perform, sample_eq]

/-- A primitive neither reads nor changes the phase. -/
theorem perform_withPhase (op : MicroOp) (c : Latched) (b : Byte) (s : State) (p : Phase) :
    perform op c b { s with phase := p } =
      ({ (perform op c b s).1 with phase := p }, (perform op c b s).2) := by
  cases op <;> simp only [perform, sample_eq] <;> rfl

/-! ### The block's step -/

theorem busy_iff (s : State) : s.busy = true ↔ ∃ c k b, s.phase = .busy c k b := by
  cases h : s.phase <;> simp [State.busy, h]

/-- A Busy block does the primitive at its position, and then either stands at the next position or has
completed. -/
theorem advance_busy {s : State} {c : Latched} {k : Nat} {b : Byte} {op : MicroOp}
    (hp : s.phase = .busy c k b) (ho : (body c)[k]? = some op) :
    advance s = .next
      (if k + 1 < (body c).length then
        { (perform op c b s).1 with phase := .busy c (k + 1) (perform op c b s).2 }
      else complete c (perform op c b s).1) := by
  simp only [advance, hp, ho]
  split <;> simp_all

/-- All that a step of the block can be, when it answers a next state. -/
theorem advance_cases {s s' : State} (h : advance s = .next s') :
    (s.phase = .idle ∧ s' = s) ∨
      ∃ c k b op, s.phase = .busy c k b ∧ (body c)[k]? = some op ∧
        ((k + 1 < (body c).length ∧
            s' = { (perform op c b s).1 with phase := .busy c (k + 1) (perform op c b s).2 }) ∨
          (¬k + 1 < (body c).length ∧ s' = complete c (perform op c b s).1)) := by
  unfold advance at h
  split at h
  · cases h
    exact .inl ⟨‹_›, rfl⟩
  · rename_i c k b hp
    split at h
    · cases h
    · rename_i op ho
      refine .inr ⟨c, k, b, op, hp, ho, ?_⟩
      split at h
      · cases h
        exact .inl ⟨‹_›, rfl⟩
      · cases h
        exact .inr ⟨‹_›, rfl⟩

/-! ### Runs -/

theorem run_succ_of_next (M : Host.Core) {s t : M.State} (n : Nat) (h : M.step s = .next t) :
    M.run (n + 1) s = M.run n t := by
  rw [Host.Core.run.eq_def]
  simp only [h]

theorem core_run_zero (s : State) : Sys2Proof.core.run 0 s = .next s := rfl

theorem core_run_succ {s t : State} (n : Nat) (h : step s = .next t) :
    Sys2Proof.core.run (n + 1) s = Sys2Proof.core.run n t :=
  run_succ_of_next Sys2Proof.core n h

/-- A list of primitives done one after another. -/
def performAll : List MicroOp → Latched → Byte → State → State × Byte
  | [], _, b, s => (s, b)
  | op :: ops, c, b, s => performAll ops c (perform op c b s).2 (perform op c b s).1

theorem performAll_append (xs ys : List MicroOp) (c : Latched) (b : Byte) (s : State) :
    performAll (xs ++ ys) c b s = performAll ys c (performAll xs c b s).2 (performAll xs c b s).1 := by
  induction xs generalizing b s with
  | nil => rfl
  | cons op xs ih => exact ih _ _

theorem performAll_withPhase (ops : List MicroOp) (c : Latched) (b : Byte) (s : State) (p : Phase) :
    performAll ops c b { s with phase := p } =
      ({ (performAll ops c b s).1 with phase := p }, (performAll ops c b s).2) := by
  induction ops generalizing b s with
  | nil => rfl
  | cons op ops ih => simp only [performAll, perform_withPhase, ih]

/-- With no host action listed, a Busy block runs the rest of its body to the end, one primitive a
step, and completes in the step of the last. -/
theorem run_rest (c : Latched) (ops : List MicroOp) (k : Nat) (b : Byte) (s : State) (hne : ops ≠ [])
    (hp : s.phase = .busy c k b) (hh : s.host = []) (hd : (body c).drop k = ops) :
    Sys2Proof.core.run ops.length s = .next (complete c (performAll ops c b s).1) := by
  induction ops generalizing k b s with
  | nil => exact absurd rfl hne
  | cons op ops ih =>
    have hk : k < (body c).length := by
      by_contra hk
      rw [List.drop_eq_nil_of_le (Nat.le_of_not_lt hk)] at hd
      cases hd
    have hcons := List.drop_eq_getElem_cons hk
    rw [hd] at hcons
    injection hcons with h1 h2
    have ho : (body c)[k]? = some op := by rw [List.getElem?_eq_getElem hk, ← h1]
    have hstep : step s = advance s := by
      have hb : s.busy = true := (busy_iff s).2 ⟨c, k, b, hp⟩
      simp [step, moveNext, hh, blockStep, hb]
    rw [advance_busy hp ho] at hstep
    rw [List.length_cons, core_run_succ _ hstep]
    cases ops with
    | nil =>
      have hlast : ¬k + 1 < (body c).length := by
        intro hlt
        have := congrArg List.length h2
        simp only [List.length_nil, List.length_drop] at this
        omega
      rw [if_neg hlast]
      rfl
    | cons op' ops =>
      have hmore : k + 1 < (body c).length := by
        by_contra hle
        rw [List.drop_eq_nil_of_le (Nat.le_of_not_lt hle)] at h2
        cases h2
      rw [if_pos hmore]
      rw [ih (k + 1) (perform op c b s).2 _ (by simp) rfl (by simpa using hh) h2.symm]
      simp only [performAll_withPhase]
      rfl

end Sys2Proof.Machine
end

