-- ==== Sys2Proof/Laws/Step.lean ====
section
/-! SUPPORT. What issuing a command, a held write, a host action and a whole step can do. -/

namespace Sys2Proof.Machine

/-- Holding a write: it goes into the empty queue and nothing else changes. -/
theorem holdWrite_cases {hw : HostWrite} {s s' : State} (h : holdWrite hw s = .next s') :
    s.held = none ∧ s' = { s with held := some hw } := by
  unfold holdWrite at h
  split at h
  · cases h
    exact ⟨‹_›, rfl⟩
  · cases h

/-- Issuing a command: its word is held, or it is rejected with a code, or it is accepted. -/
theorem issue_cases {i : Instr} {s s' : State} (h : issue i s = .next s') :
    (s.busy = true ∧ s.held = none ∧ s' = { s with held := some (.cmd (encode i) s.binding) }) ∨
      (s.busy = false ∧ validate i s ≠ .none ∧ s' = reject (validate i s) s) ∨
      (s.busy = false ∧ validate i s = .none ∧ s' = accept i s) := by
  unfold issue at h
  split at h
  · obtain ⟨h1, h2⟩ := holdWrite_cases h
    exact .inl ⟨‹_›, h1, h2⟩
  · rename_i hb
    have hb : s.busy = false := by simpa using hb
    split at h
    · cases h
      exact .inr (.inr ⟨hb, ‹_›, rfl⟩)
    · cases h
      exact .inr (.inl ⟨hb, ‹_›, rfl⟩)

/-- Every arm of `exec` issues its own command. -/
theorem exec_eq_issue (i : Instr) (s : State) : exec i s = issue i s := by
  cases i <;> rfl

/-- A CMD write: held, rejected or accepted. A word that decodes leaves its buffer in `binding`. -/
theorem writeCmd_cases {w : Word} {buf : Binding} {s s' : State} (h : writeCmd w buf s = .next s') :
    (s.busy = true ∧ s.held = none ∧ s' = { s with held := some (.cmd w buf) }) ∨
      (s.busy = false ∧ ∃ e p, e ≠ .none ∧ s' = reject e { s with binding := p }) ∨
      (s.busy = false ∧ ∃ i, decode w = .ok i ∧ validate i { s with binding := buf } = .none ∧
        s' = accept i { s with binding := buf }) := by
  unfold writeCmd at h
  split at h
  · obtain ⟨h1, h2⟩ := holdWrite_cases h
    exact .inl ⟨‹_›, h1, h2⟩
  · rename_i hb
    have hb : s.busy = false := by simpa using hb
    split at h
    · rename_i i hi
      rw [exec_eq_issue] at h
      obtain ⟨hb', _⟩ | ⟨_, hv, h'⟩ | ⟨_, hv, h'⟩ := issue_cases h
      · have hb'' : s.busy = true := hb'
        rw [hb] at hb''
        cases hb''
      · exact .inr (.inl ⟨hb, _, buf, hv, h'⟩)
      · exact .inr (.inr ⟨hb, i, hi, hv, h'⟩)
    · cases h
      exact .inr (.inl ⟨hb, .illegal, s.binding, by decide, rfl⟩)

/-- A DELAY write: held, or stored. -/
theorem writeDelay_cases {w : Word} {s s' : State} (h : writeDelay w s = .next s') :
    (s.busy = true ∧ s.held = none ∧ s' = { s with held := some (.delay w) }) ∨
      (s.busy = false ∧ s' = { s with delay := delayOfWord w }) := by
  unfold writeDelay at h
  split at h
  · obtain ⟨h1, h2⟩ := holdWrite_cases h
    exact .inl ⟨‹_›, h1, h2⟩
  · rename_i hb
    cases h
    exact .inr ⟨by simpa using hb, rfl⟩

/-- The block's move: an event, a held write that proceeds, or nothing. -/
theorem blockStep_cases {s s' : State} (h : blockStep s = .next s') :
    (s.busy = true ∧ advance s = .next s') ∨
      (s.busy = false ∧ ∃ hw, s.held = some hw ∧ performHeld hw { s with held := none } = .next s') ∨
      (s.busy = false ∧ s.held = none ∧ s' = s) := by
  unfold blockStep at h
  split at h
  · exact .inl ⟨‹_›, h⟩
  · rename_i hb
    have hb : s.busy = false := by simpa using hb
    split at h
    · exact .inr (.inl ⟨hb, _, ‹_›, h⟩)
    · cases h
      exact .inr (.inr ⟨hb, ‹_›, rfl⟩)

/-- The block moves when no host action is listed. -/
theorem step_of_host_nil {s : State} (h : s.host = []) : step s = blockStep s := by
  simp [step, moveNext, h]

/-- A stalled host waits and the block moves. -/
theorem step_of_stalled {s : State} {a : HostAction} {rest : List HostAction} (h : s.host = a :: rest)
    (hs : s.held.isSome = true) (ha : a.ignoresStall = false) : step s = blockStep s := by
  simp [step, moveNext, h, hs, ha]

/-- The host acts when it is not stalled. -/
theorem step_of_host_cons {s : State} {a : HostAction} {rest : List HostAction} (h : s.host = a :: rest)
    (hs : s.held = none) : step s = hostStep a rest s := by
  simp [step, moveNext, h, hs]

/-- Every way in which a Busy block makes its next event: the host does nothing, ticks, waits in WAITIDLE, or
is stalled on a held write. A tick is used up; any other action stays. -/
theorem step_of_busy {s : State} (hb : s.busy = true)
    (h : s.host = [] ∨ (∃ rest, s.host = .tick :: rest) ∨ (s.held = none ∧ ∃ rest, s.host = .waitIdle :: rest) ∨
      (s.held ≠ none ∧ ∃ a rest, s.host = a :: rest ∧ a.ignoresStall = false)) :
    step s = advance (if s.host.head? = some .tick then { s with host := s.host.tail } else s) := by
  rcases h with h | ⟨rest, h⟩ | ⟨hn, rest, h⟩ | ⟨hn, a, rest, h, ha⟩
  · rw [step_of_host_nil h]
    simp [h, blockStep, hb]
  · have hb' : ({ s with host := rest } : State).busy = true := hb
    simp [step, moveNext, h, HostAction.ignoresStall, hostStep, blockStep, hb']
  · simp [step, moveNext, h, hn, hostStep, waitIdle, blockStep, hb]
  · rw [step_of_stalled h (Option.isSome_iff_ne_none.2 hn) ha]
    cases a <;> simp_all [HostAction.ignoresStall, blockStep]

/-- A step is the block's move or the outside world's next action. -/
theorem step_cases (s : State) :
    step s = blockStep s ∨ ∃ a rest, s.host = a :: rest ∧ step s = hostStep a rest s := by
  unfold step moveNext
  split
  · exact .inl rfl
  · rename_i a rest h
    split
    · exact .inl rfl
    · exact .inr ⟨a, rest, h, rfl⟩

/-- The state with the outside world's list, the held write, the host's answer and the last bound buffer
replaced: all that a step can change beside what `StepEffect` names. -/
def State.besides (s : State) (h : List HostAction) (hd : Option HostWrite) (a : Option Word) (p : Binding) :
    State :=
  { s with host := h, held := hd, answer := a, binding := p }

section besides
variable (s : State) (h : List HostAction) (hd : Option HostWrite) (a : Option Word) (p : Binding)

@[simp] theorem besides_lines : (s.besides h hd a p).lines = s.lines := rfl
@[simp] theorem besides_initDone : (s.besides h hd a p).initDone = s.initDone := rfl
@[simp] theorem besides_line : (s.besides h hd a p).line = s.line := rfl
@[simp] theorem besides_err : (s.besides h hd a p).err = s.err := rfl
@[simp] theorem besides_delay : (s.besides h hd a p).delay = s.delay := rfl
@[simp] theorem besides_phase : (s.besides h hd a p).phase = s.phase := rfl
@[simp] theorem besides_memory : (s.besides h hd a p).memory = s.memory := rfl
@[simp] theorem besides_trace : (s.besides h hd a p).trace = s.trace := rfl
@[simp] theorem besides_diInput : (s.besides h hd a p).diInput = s.diInput := rfl
@[simp] theorem besides_draws : (s.besides h hd a p).draws = s.draws := rfl
@[simp] theorem besides_prior : (s.besides h hd a p).prior = s.prior := rfl
@[simp] theorem besides_peeks : (s.besides h hd a p).peeks = s.peeks := rfl
@[simp] theorem besides_host : (s.besides h hd a p).host = h := rfl
@[simp] theorem besides_held : (s.besides h hd a p).held = hd := rfl
@[simp] theorem besides_answer : (s.besides h hd a p).answer = a := rfl
@[simp] theorem besides_binding : (s.besides h hd a p).binding = p := rfl
@[simp] theorem besides_levelAt (n : Nat) : (s.besides h hd a p).levelAt n = s.levelAt n := rfl

end besides

/-- Everything one step can do to a state. -/
inductive StepEffect (s : State) : State → Prop where
  /-- Nothing but the host's list and its answer. -/
  | quiet (h : List HostAction) (a : Option Word) (hb : s.busy = false ∨ s.host ≠ []) :
      StepEffect s (s.besides h s.held a s.binding)
  /-- The host reads a byte that a READ is filling. -/
  | peeked (h : List HostAction) (a : Option Word) (i : Nat) (hr : s.receiving i = true) (hb : s.host ≠ []) :
      StepEffect s { s.besides h s.held a s.binding with peeks := s.peeks + 1 }
  /-- A host write is held. -/
  | hold (h : List HostAction) (hw : HostWrite) (hb : s.busy = true) (hn : s.held = none) :
      StepEffect s (s.besides h (some hw) s.answer s.binding)
  /-- The block makes an event; a stalled host's list stays. -/
  | event (h : List HostAction) (s' : State) (hb : s.busy = true)
      (hh : h = s.host ∨ ∃ rest, s.host = .tick :: rest ∧ h = rest)
      (ha : advance (s.besides h s.held s.answer s.binding) = .next s') : StepEffect s s'
  /-- A command is rejected. -/
  | rejected (h : List HostAction) (hd : Option HostWrite) (p : Binding) (e : ErrCode) (w : Word)
      (buf : Binding) (hb : s.busy = false)
      (hw : s.held = some (.cmd w buf) ∨ s.host.head? = some (.writeReg 0 32 w buf)) (he : e ≠ .none) :
      StepEffect s (reject e (s.besides h hd s.answer p))
  /-- A command is accepted, with the buffer bound to it. -/
  | accepted (h : List HostAction) (hd : Option HostWrite) (i : Instr) (w : Word) (buf : Binding)
      (hb : s.busy = false)
      (hw : s.held = some (.cmd w buf) ∨ s.host.head? = some (.writeReg 0 32 w buf))
      (hi : decode w = .ok i) (hv : validate i s = .none) :
      StepEffect s (accept i (s.besides h hd s.answer buf))
  /-- DELAY is stored. -/
  | delayed (h : List HostAction) (hd : Option HostWrite) (d : Micros) (hb : s.busy = false) :
      StepEffect s { s.besides h hd s.answer s.binding with delay := d }
  /-- The host writes a byte outside the running command's buffer. -/
  | filled (h : List HostAction) (a : Nat) (v : Byte) (ho : s.owned a = false)
      (ha : s.host.head? = some (.writeBuffer a v)) :
      StepEffect s { s.besides h s.held s.answer s.binding with memory := s.memory.store a v }
  /-- Reset. -/
  | wasReset (rest : List HostAction) (hh : s.host = .assertReset :: rest) :
      StepEffect s (resetBlock (s.besides rest s.held s.answer s.binding))

theorem stepEffect_writeCmd {w : Word} {buf : Binding} {s s' : State} (h : List HostAction)
    (hd : Option HostWrite)
    (hw : s.held = some (.cmd w buf) ∨ s.host.head? = some (.writeReg 0 32 w buf))
    (hk : s.busy = true → hd = s.held)
    (hs : writeCmd w buf (s.besides h hd s.answer s.binding) = .next s') : StepEffect s s' := by
  obtain ⟨hb, hn, rfl⟩ | ⟨hb, e, p, he, rfl⟩ | ⟨hb, i, hi, hv, rfl⟩ := writeCmd_cases hs
  · have hn' : hd = none := hn
    exact .hold h (.cmd w buf) hb (by rw [← hk hb, hn'])
  · exact .rejected h hd p e w buf hb hw he
  · exact .accepted h hd i w buf hb hw hi hv

theorem stepEffect_writeDelay {w : Word} {s s' : State} (h : List HostAction) (hd : Option HostWrite)
    (hk : s.busy = true → hd = s.held)
    (hs : writeDelay w (s.besides h hd s.answer s.binding) = .next s') : StepEffect s s' := by
  obtain ⟨hb, hn, rfl⟩ | ⟨hb, rfl⟩ := writeDelay_cases hs
  · have hn' : hd = none := hn
    exact .hold h (.delay w) hb (by rw [← hk hb, hn'])
  · exact .delayed h hd _ hb

theorem stepEffect_blockStep {s s' : State} (h : List HostAction)
    (hh : h = s.host ∨ ∃ rest, s.host = .tick :: rest ∧ h = rest)
    (hs : blockStep (s.besides h s.held s.answer s.binding) = .next s') : StepEffect s s' := by
  obtain ⟨hb, ha⟩ | ⟨hb, hw, hhw, hp⟩ | ⟨hb, hn, rfl⟩ := blockStep_cases hs
  · exact .event h s' hb hh ha
  · have hne : s.busy = true → (none : Option HostWrite) = s.held := fun hb' => by
      rw [show s.busy = false from hb] at hb'
      cases hb'
    cases hw with
    | cmd w buf => exact stepEffect_writeCmd h none (.inl hhw) hne hp
    | delay w => exact stepEffect_writeDelay h none hne hp
  · exact .quiet h s.answer (.inl hb)

/-- Every step that answers a next state has one of the effects listed in `StepEffect`. -/
theorem step_effect {s s' : State} (hs : step s = .next s') : StepEffect s s' := by
  obtain e | ⟨a, rest, ha, e⟩ := step_cases s <;> rw [e] at hs
  · exact stepEffect_blockStep s.host (.inl rfl) hs
  have hne : s.host ≠ [] := by rw [ha]; exact List.cons_ne_nil _ _
  cases a <;> simp only [hostStep] at hs
  case tick => exact stepEffect_blockStep rest (.inr ⟨rest, ha, rfl⟩) hs
  case readReg n width =>
    unfold readReg at hs
    split at hs
    · split at hs
      · cases hs
        exact .quiet rest _ (.inr hne)
      · cases hs
    · cases hs
  case writeReg n width w buf =>
    unfold writeReg at hs
    split at hs
    · rename_i hwd
      subst hwd
      split at hs
      · exact stepEffect_writeCmd rest s.held (.inr (by rw [ha]; rfl)) (fun _ => rfl) hs
      · cases hs
        exact .quiet rest s.answer (.inr hne)
      · exact stepEffect_writeDelay rest s.held (fun _ => rfl) hs
      · cases hs
    · cases hs
  case readBuffer i =>
    unfold readBuffer at hs
    split at hs
    · rename_i hr
      have hr' : s.receiving i = true := hr
      cases hs
      exact .peeked rest (some ((seenByte i s).setWidth 32)) i hr' hne
    · cases hs
      exact .quiet rest _ (.inr hne)
  case writeBuffer i v =>
    unfold writeBuffer at hs
    split at hs
    · cases hs
    · rename_i ho
      cases hs
      exact .filled rest i v (Bool.eq_false_of_not_eq_true ho) (by rw [ha]; rfl)
  case waitIdle =>
    unfold waitIdle at hs
    split at hs
    · exact stepEffect_blockStep s.host (.inl rfl) hs
    · rename_i hb
      cases hs
      exact .quiet rest _ (.inr hne)
  case check mask value =>
    unfold checkStatus at hs
    split at hs
    · cases hs
      exact .quiet rest _ (.inr hne)
    · cases hs
  case driveLine l v => cases hs
  case assertReset =>
    cases hs
    exact .wasReset rest ha

end Sys2Proof.Machine
end

