-- ==== Sys2Proof/Laws/Bodies.lean ====
section
/-! SUPPORT. Each command's body: that it is safe from where it starts (`restIsSafe`), that a primitive
keeps what is left safe, and which primitives it holds. -/

namespace Sys2Proof.Machine

theorem setDir_setOut (ln : Lines) (l : Line) (m : Dir) (l' : OutLine) (v : Level) :
    (ln.setOut l' v).setDir l m = (ln.setDir l m).setOut l' v := by cases l <;> cases l' <;> rfl

theorem setOut_setOut_DO (ln : Lines) (l : OutLine) (v w : Level) :
    (∃ x, (ln.setOut .DO v).setOut l w = (ln.setOut l w).setOut .DO x) := by
  cases l
  · exact ⟨w, rfl⟩
  · exact ⟨v, rfl⟩
  · exact ⟨v, rfl⟩

/-- DO's level does not matter to what is left of a command. -/
theorem restIsSafe_DO (sets : Bool) (ops : List MicroOp) (ln : Lines) (v : Level) :
    restIsSafe sets (ln.setOut .DO v) ops = restIsSafe sets ln ops := by
  induction ops generalizing ln v with
  | nil => rfl
  | cons op ops ih =>
    cases op with
    | setDir l m => simp only [restIsSafe, setDir_setOut, ih]
    | drive l w =>
      obtain ⟨x, hx⟩ := setOut_setOut_DO ln l v w
      simp only [restIsSafe, setOut_dirOf, hx, ih]
    | shiftOut i => simp only [restIsSafe, ih]; rfl
    | wait => simp only [restIsSafe, ih]
    | shiftIn i => simp only [restIsSafe, ih]
    | bufRead i => simp only [restIsSafe, ih]
    | bufWrite i => simp only [restIsSafe, ih]
    | sampleLine => simp only [restIsSafe, ih]

/-- A primitive done leaves the rest of the command safe. -/
theorem restIsSafe_perform {sets : Bool} {op ops} {c : Latched} {b : Byte} {s : State}
    (h : restIsSafe sets s.lines (op :: ops) = true) :
    restIsSafe sets (perform op c b s).1.lines ops = true := by
  rw [perform_lines]
  cases op <;> simp_all [restIsSafe, restIsSafe_DO]
  exact h.1 ▸ h.2

theorem restIsSafe_sendByte (sets : Bool) (ln : Lines) (ops) (h : ln.dirsSet = true) :
    restIsSafe sets ln (sendByteOps ++ ops) = restIsSafe sets (ln.setOut .CL false) ops := by
  obtain ⟨h1, h2, h3, h4⟩ : ln.dirDO = .output ∧ ln.dirCL = .output ∧ ln.dirDI = .inputPullup ∧ ln.dirCE = .output := by
    simpa [Lines.dirsSet, and_assoc] using h
  simp [sendByteOps, sendBitOps, restIsSafe, h1, h2, Lines.dirOf, Lines.setOut]

theorem restIsSafe_receiveByte (sets : Bool) (ln : Lines) (ops) (h : ln.dirsSet = true) :
    restIsSafe sets ln (receiveByteOps ++ ops) = restIsSafe sets (ln.setOut .CL false) ops := by
  obtain ⟨h1, h2, h3, h4⟩ : ln.dirDO = .output ∧ ln.dirCL = .output ∧ ln.dirDI = .inputPullup ∧ ln.dirCE = .output := by
    simpa [Lines.dirsSet, and_assoc] using h
  simp [receiveByteOps, receiveBitOps, restIsSafe, h1, h2, Lines.dirOf, Lines.setOut]

theorem setOut_CL_idem (ln : Lines) : (ln.setOut .CL false).setOut .CL false = ln.setOut .CL false := rfl

theorem restIsSafe_sendPayload (n : Nat) (hn : n ≤ Config.lenMax) (ln : Lines) (ops) (h : ln.dirsSet = true)
    (hcl : ln.outCL = false) :
    restIsSafe false ln (sendPayloadOps n ++ ops) = restIsSafe false ln ops := by
  have e : ln.setOut .CL false = ln := by cases ln; simp_all [Lines.setOut]
  induction n with
  | zero => rfl
  | succ n ih =>
    simp only [sendPayloadOps, List.cons_append, List.append_assoc, restIsSafe]
    rw [restIsSafe_sendByte _ _ _ h, e, ih (by omega)]
    simp [show n < Config.lenMax by omega]

theorem restIsSafe_receivePayload (n : Nat) (hn : n ≤ Config.lenMax) (ln : Lines) (ops) (h : ln.dirsSet = true)
    (hcl : ln.outCL = false) :
    restIsSafe false ln (receivePayloadOps n ++ ops) = restIsSafe false ln ops := by
  have e : ln.setOut .CL false = ln := by cases ln; simp_all [Lines.setOut]
  induction n generalizing ops with
  | zero => rfl
  | succ n ih =>
    simp only [receivePayloadOps, List.append_assoc]
    rw [ih (by omega), restIsSafe_receiveByte _ _ _ h, e]
    simp [restIsSafe, show n < Config.lenMax by omega]

/-- TRANSACT is safe with the directions set (42 R74). -/
theorem restIsSafe_transact (n : Nat) (hn : n ≤ Config.lenMax) (m : Mode) (ln : Lines) (h : ln.dirsSet = true) :
    restIsSafe false ln (transactOps n m) = true := by
  obtain ⟨h1, h2, h3, h4⟩ : ln.dirDO = .output ∧ ln.dirCL = .output ∧ ln.dirDI = .inputPullup ∧ ln.dirCE = .output := by
    simpa [Lines.dirsSet, and_assoc] using h
  cases m <;> simp only [transactOps, payloadOps, List.append_assoc, List.cons_append, List.nil_append] <;>
    rw [restIsSafe_sendByte _ _ _ h] <;> simp only [restIsSafe]
  · rw [restIsSafe_sendPayload n hn _ _ (by simpa using h) (by rfl)]
    simp [restIsSafe, Lines.dirOf, Lines.setOut, h1, h2, h4, Lines.atRest]
  · rw [restIsSafe_receivePayload n hn _ _ (by simpa using h) (by rfl)]
    simp [restIsSafe, Lines.dirOf, Lines.setOut, h1, h2, h4, Lines.atRest]

/-- INIT is safe from any lines, and sets the directions (43 R88). -/
theorem restIsSafe_init (ln : Lines) : restIsSafe true ln initOps = true := by
  cases ln; rfl

theorem mem_of_get {c : Latched} {k : Nat} {op : MicroOp} (h : (body c)[k]? = some op) : op ∈ body c := List.mem_of_getElem? h

theorem mem_sendByte {op} (h : op ∈ sendByteOps) : (∃ i, op = .shiftOut i) ∨ (∃ l v, op = .drive l v) ∨ op = .wait := by
  obtain ⟨i, -, h⟩ := List.mem_flatMap.1 h
  simp only [sendBitOps, List.mem_cons, List.not_mem_nil, or_false] at h
  rcases h with rfl | rfl | rfl | rfl | rfl <;> simp
theorem mem_receiveByte {op} (h : op ∈ receiveByteOps) : (∃ i, op = .shiftIn i) ∨ (∃ l v, op = .drive l v) ∨ op = .wait := by
  obtain ⟨i, -, h⟩ := List.mem_flatMap.1 h
  simp only [receiveBitOps, List.mem_cons, List.not_mem_nil, or_false] at h
  rcases h with rfl | rfl | rfl | rfl | rfl <;> simp

/-- Which primitives a command's body holds (20 R32, 42 R81). -/
theorem mem_body {c : Latched} {op : MicroOp} (h : op ∈ body c) :
   match op with
   | .setDir _ _ => c.op = .init
   | .shiftOut _ => c.op = .xfer
   | .shiftIn _ => c.op = .xfer ∧ c.mode = .receive
   | .bufRead i => c.op = .xfer ∧ c.mode = .send ∧ i < c.len.toNat
   | .bufWrite i => c.op = .xfer ∧ c.mode = .receive ∧ i < c.len.toNat
   | .sampleLine => c.op = .linestate
   | _ => True := by
  have sp : ∀ n, op ∈ sendPayloadOps n → (∃ i, i < n ∧ op = .bufRead i) ∨ op ∈ sendByteOps := by
    intro n; induction n with
    | zero => intro h; simp [sendPayloadOps] at h
    | succ n ih =>
      intro h; simp only [sendPayloadOps, List.mem_cons, List.mem_append] at h
      rcases h with h | h | h
      · exact .inl ⟨n, by omega, h⟩
      · exact .inr h
      · rcases ih h with ⟨i, hi, e⟩ | h
        · exact .inl ⟨i, by omega, e⟩
        · exact .inr h
  have rp : ∀ n, op ∈ receivePayloadOps n → (∃ i, i < n ∧ op = .bufWrite i) ∨ op ∈ receiveByteOps := by
    intro n; induction n with
    | zero => intro h; simp [receivePayloadOps] at h
    | succ n ih =>
      intro h; simp only [receivePayloadOps, List.mem_cons, List.mem_append, List.not_mem_nil, or_false] at h
      rcases h with h | h | h
      · rcases ih h with ⟨i, hi, e⟩ | h
        · exact .inl ⟨i, by omega, e⟩
        · exact .inr h
      · exact .inr h
      · exact .inl ⟨n, by omega, h⟩
  cases hc : c.op with
  | init =>
    simp only [body, hc, initOps] at h
    cases op <;> simp_all
  | linestate => simp only [body, hc, linestateOps, List.mem_singleton] at h; subst h; simp
  | xfer =>
    simp only [body, hc, transactOps, List.mem_append] at h
    cases hm : c.mode with
    | send =>
      simp only [hm, payloadOps, List.mem_append] at h
      rcases h with ((h | h) | h | h) | h
      · rcases mem_sendByte h with ⟨i, rfl⟩ | ⟨l, v, rfl⟩ | rfl <;> simp
      · simp at h; rcases h with rfl | rfl | rfl <;> simp
      · rcases sp _ h with ⟨i, hi, rfl⟩ | h
        · simpa using hi
        · rcases mem_sendByte h with ⟨i, rfl⟩ | ⟨l, v, rfl⟩ | rfl <;> simp
      · simp at h; subst h; simp
      · simp at h; rcases h with rfl | rfl <;> simp
    | receive =>
      simp only [hm, payloadOps] at h
      rcases h with ((h | h) | h) | h
      · rcases mem_sendByte h with ⟨i, rfl⟩ | ⟨l, v, rfl⟩ | rfl <;> simp
      · simp at h; rcases h with rfl | rfl | rfl <;> simp
      · rcases rp _ h with ⟨i, hi, rfl⟩ | h
        · simpa using hi
        · rcases mem_receiveByte h with ⟨i, rfl⟩ | ⟨l, v, rfl⟩ | rfl <;> simp
      · simp at h; rcases h with rfl | rfl <;> simp

end Sys2Proof.Machine
end

