-- ==== Sys2Proof/Laws/Encoding.lean ====
section
/-! SUPPORT. The fields of a packed word, and a word's fields put together again (30 R52, R56). -/

namespace Sys2Proof

theorem addrField_packWord (op : BitVec 2) (mode : BitVec 1) (addr len : Byte) : addrField (packWord op mode addr len) = addr := by
  apply BitVec.eq_of_getLsbD_eq
  intro i hi
  simp only [addrField, packWord, BitVec.getLsbD_extractLsb', BitVec.getLsbD_or, BitVec.getLsbD_shiftLeft, BitVec.getLsbD_setWidth]
  interval_cases i <;> simp
theorem lenField_packWord (op : BitVec 2) (mode : BitVec 1) (addr len : Byte) : lenField (packWord op mode addr len) = len := by
  apply BitVec.eq_of_getLsbD_eq
  intro i hi
  simp only [lenField, packWord, BitVec.getLsbD_extractLsb', BitVec.getLsbD_or, BitVec.getLsbD_shiftLeft, BitVec.getLsbD_setWidth]
  interval_cases i <;> simp

theorem and_ff (w : Word) : w &&& 0xFFFFFFFF#32 = w := by
  have : (0xFFFFFFFF#32) = BitVec.allOnes 32 := by decide
  rw [this, BitVec.and_allOnes]

theorem packWord_fields (op : BitVec 2) (mode : BitVec 1) (w : Word)
    (h : w &&& 0xFF0000FF#32 = mode.setWidth 32 <<< 2 ||| op.setWidth 32) :
    packWord op mode (addrField w) (lenField w) = w := by
  apply BitVec.eq_of_getLsbD_eq
  intro i hi
  have hb := congrArg (fun x => x.getLsbD i) h
  simp only [BitVec.getLsbD_and, BitVec.getLsbD_or, BitVec.getLsbD_shiftLeft, BitVec.getLsbD_setWidth] at hb
  simp only [addrField, lenField, packWord, BitVec.getLsbD_extractLsb', BitVec.getLsbD_or, BitVec.getLsbD_shiftLeft, BitVec.getLsbD_setWidth]
  interval_cases i <;> simp_all

theorem xfer_fields (w : Word) (lo : Byte) :
    w &&& 0xFF0000FF#32 = lo.setWidth 32 ↔ w.extractLsb' 0 8 = lo ∧ rsv1Field w = 0#8 := by
  constructor
  · intro h
    constructor
    · apply BitVec.eq_of_getLsbD_eq
      intro i hi
      have hb := congrArg (fun x => x.getLsbD i) h
      simp only [BitVec.getLsbD_and, BitVec.getLsbD_setWidth] at hb
      simp only [BitVec.getLsbD_extractLsb']
      interval_cases i <;> simp_all
    · apply BitVec.eq_of_getLsbD_eq
      intro i hi
      have hb := congrArg (fun x => x.getLsbD (24 + i)) h
      simp only [BitVec.getLsbD_and, BitVec.getLsbD_setWidth] at hb
      simp only [rsv1Field, BitVec.getLsbD_extractLsb']
      interval_cases i <;> simp_all
  · rintro ⟨h1, h2⟩
    apply BitVec.eq_of_getLsbD_eq
    intro i hi
    have hb := congrArg (fun x => x.getLsbD i) h1
    have hc := congrArg (fun x => x.getLsbD (i - 24)) h2
    simp only [rsv1Field, BitVec.getLsbD_extractLsb'] at hb hc
    simp only [BitVec.getLsbD_and, BitVec.getLsbD_setWidth]
    interval_cases i <;> simp_all

theorem low_fields (w : Word) : w.extractLsb' 0 8 = rsv0Field w ++ modeField w ++ opField w := by
  apply BitVec.eq_of_getLsbD_eq
  intro i hi
  simp only [rsv0Field, modeField, opField, BitVec.getLsbD_append, BitVec.getLsbD_extractLsb']
  interval_cases i <;> simp

theorem word_fields (w : Word) : w = rsv1Field w ++ lenField w ++ addrField w ++ (rsv0Field w ++ modeField w ++ opField w) := by
  rw [← low_fields]
  apply BitVec.eq_of_getLsbD_eq
  intro i hi
  simp only [rsv1Field, lenField, addrField, BitVec.getLsbD_append, BitVec.getLsbD_extractLsb']
  interval_cases i <;> simp

end Sys2Proof
end

