-- ==== Sys2Proof/Laws/PerInstr.lean ====
section
/-! SUPPORT. A statement about every command, one lemma per constructor: its word lies in its row of the
opcode map (30 R56). -/

namespace Sys2Proof.Laws

/-- The mask of a command's row (30 R56). -/
def rowMask : Instr → Word
  | .init => 0xFFFFFFFF#32
  | .write _ _ => 0xFF0000FF#32
  | .read _ _ => 0xFF0000FF#32
  | .linestate => 0xFFFFFFFF#32

/-- The match of a command's row (30 R56). -/
def rowMatch : Instr → Word
  | .init => 0x00000000#32
  | .write _ _ => 0x00000001#32
  | .read _ _ => 0x00000005#32
  | .linestate => 0x00000002#32

/-- The command's word matches its own row. -/
def LiesInItsRow.Statement (i : Instr) : Prop := encode i &&& rowMask i = rowMatch i

theorem LiesInItsRow.init : LiesInItsRow.Statement .init := by
  simp only [LiesInItsRow.Statement]
  decide

theorem LiesInItsRow.linestate : LiesInItsRow.Statement .linestate := by
  simp only [LiesInItsRow.Statement]
  decide

/-- A packed word keeps only its low byte under the transfers' mask. -/
theorem packWord_and_mask (op : BitVec 2) (mode : BitVec 1) (addr len : Byte) :
    packWord op mode addr len &&& 0xFF0000FF#32 = mode.setWidth 32 <<< 2 ||| op.setWidth 32 := by
  have h1 : (len.setWidth 32 <<< 16) &&& 0xFF0000FF#32 = 0#32 := by
    revert len
    decide
  have h2 : (addr.setWidth 32 <<< 8) &&& 0xFF0000FF#32 = 0#32 := by
    revert addr
    decide
  have h3 : (mode.setWidth 32 <<< 2 ||| op.setWidth 32) &&& 0xFF0000FF#32
      = mode.setWidth 32 <<< 2 ||| op.setWidth 32 := by
    revert mode op
    decide
  unfold packWord
  rw [BitVec.or_assoc, ← BitVec.and_comm, BitVec.and_or_distrib_left, BitVec.and_or_distrib_left,
    BitVec.and_comm _ (len.setWidth 32 <<< 16), BitVec.and_comm _ (addr.setWidth 32 <<< 8),
    BitVec.and_comm _ (mode.setWidth 32 <<< 2 ||| op.setWidth 32), h1, h2, h3]
  simp

theorem LiesInItsRow.write (addr len : Byte) : LiesInItsRow.Statement (.write addr len) :=
  (packWord_and_mask _ _ addr len).trans rfl

theorem LiesInItsRow.read (addr len : Byte) : LiesInItsRow.Statement (.read addr len) :=
  (packWord_and_mask _ _ addr len).trans rfl

end Sys2Proof.Laws
end

