-- ==== Sys2Proof/Laws/Runs.lean ====
section
/-! SUPPORT. What the codec's and the framer's primitives do together (41 R70, R71; 42 R77, R78), and the
run of a whole body. -/

namespace Sys2Proof.Machine

/-- One bit of SEND_BYTE (41 R70). -/
theorem performAll_sendBit (i : Nat) (c : Latched) (v : Byte) (s : State) :
    performAll (sendBitOps i) c v s =
      ({ s with
          lines := { s.lines with outDO := v.getLsbD i, outCL := false }
          trace := s.trace ++
            [.lvl .DO (v.getLsbD i), .lvl .CL true, .wait c.delay, .lvl .CL false, .wait c.delay] }, v) := by
  simp [sendBitOps, performAll, perform, drive, waitFor, emit, Lines.setOut]

/-- SEND_BYTE: its events, and DO left at bit 7, CL low (41 R70, R73). -/
theorem performAll_sendByte (c : Latched) (v : Byte) (s : State) :
    performAll sendByteOps c v s =
      ({ s with
          lines := { s.lines with outDO := v.getLsbD 7, outCL := false }
          trace := s.trace ++ sendByteTrace c.delay v }, v) := by
  have h : sendByteOps = sendBitOps 0 ++ (sendBitOps 1 ++ (sendBitOps 2 ++ (sendBitOps 3 ++
      (sendBitOps 4 ++ (sendBitOps 5 ++ (sendBitOps 6 ++ sendBitOps 7)))))) := rfl
  rw [h]
  simp only [performAll_append, performAll_sendBit, List.append_assoc]
  rfl

/-- Setting bits 7 down to 0 one after another gives the received byte (41 R71). -/
theorem receivedByte_eq (f : Nat → Level) :
    setBit (setBit (setBit (setBit (setBit (setBit (setBit (setBit 0 7 (f 0)) 6 (f 1)) 5 (f 2)) 4 (f 3))
      3 (f 4)) 2 (f 5)) 1 (f 6)) 0 (f 7) = receivedByte f := by
  unfold receivedByte
  generalize f 0 = a0; generalize f 1 = a1; generalize f 2 = a2; generalize f 3 = a3
  generalize f 4 = a4; generalize f 5 = a5; generalize f 6 = a6; generalize f 7 = a7
  revert a0 a1 a2 a3 a4 a5 a6 a7
  decide

/-- One bit of RECEIVE_BYTE, after n samples (41 R71). -/
theorem performAll_receiveBit (i n : Nat) (c : Latched) (b : Byte) (s : State) (ln : Lines) (tr : List Event) :
    performAll (receiveBitOps i) c b { takeLevels n s with lines := ln, trace := tr } =
      ({ takeLevels (n + 1) s with
          lines := { ln with outCL := false }
          trace := tr ++ [.lvl .CL true, .wait c.delay, .smp .DI (s.levelAt n), .lvl .CL false, .wait c.delay] },
        setBit (if i = 7 then 0 else b) i (s.levelAt n)) := by
  have h1 : ∀ (ln : Lines) (tr : List Event),
      ({ takeLevels n s with lines := ln, trace := tr } : State).levelAt 0 = s.levelAt n :=
    fun ln tr => (levelAt_takeLevels n 0 s)
  have h2 : ∀ (ln : Lines) (tr : List Event),
      takeLevels 1 { takeLevels n s with lines := ln, trace := tr } =
        { takeLevels (n + 1) s with lines := ln, trace := tr } := by
    intro ln tr
    have := takeLevels_takeLevels n 1 s
    rw [← this]; rfl
  simp only [receiveBitOps, performAll, perform, drive, waitFor, emit, Lines.setOut, sample_eq, h1, h2, List.append_assoc, List.cons_append, List.nil_append]

/-- RECEIVE_BYTE after n samples: its events, eight samples more, CL low (41 R71, R73). -/
theorem performAll_receiveByte (n : Nat) (c : Latched) (b : Byte) (s : State) (ln : Lines) (tr : List Event) :
    performAll receiveByteOps c b { takeLevels n s with lines := ln, trace := tr } =
      ({ takeLevels (n + 8) s with
          lines := { ln with outCL := false }
          trace := tr ++ receiveByteTrace c.delay fun j => s.levelAt (n + j) },
        receivedByte fun j => s.levelAt (n + j)) := by
  have h : receiveByteOps = receiveBitOps 7 ++ (receiveBitOps 6 ++ (receiveBitOps 5 ++ (receiveBitOps 4 ++
      (receiveBitOps 3 ++ (receiveBitOps 2 ++ (receiveBitOps 1 ++ receiveBitOps 0)))))) := rfl
  rw [h]
  simp only [performAll_append, performAll_receiveBit, List.append_assoc, ← receivedByte_eq]
  rfl

/-- The Send loop (42 R77). -/
theorem performAll_sendPayload (n : Nat) (c : Latched) (b : Byte) (s : State) :
    (performAll (sendPayloadOps n) c b s).1 =
      { s with
        lines := if n = 0 then s.lines else { s.lines with outDO := (s.memory.bound c.buf 0).getLsbD 7, outCL := false }
        trace := s.trace ++ sendLoopTrace c.delay (s.memory.bound c.buf) n } := by
  induction n generalizing b s with
  | zero => simp [sendPayloadOps, performAll, sendLoopTrace]
  | succ n ih =>
    simp only [sendPayloadOps, performAll, performAll_append, perform, memRead, emit, performAll_sendByte, ih, sendLoopTrace]
    cases n <;> simp

/-- The Receive loop, from lines and a trace given apart (42 R78). -/
theorem performAll_receivePayload (n : Nat) (c : Latched) (b : Byte) (s : State) (ln : Lines) (tr : List Event) :
    (performAll (receivePayloadOps n) c b { s with lines := ln, trace := tr }).1 =
      { takeLevels (8 * n) s with
        lines := if n = 0 then ln else { ln with outCL := false }
        memory := storeReceived s.levelAt c.buf s.memory n
        trace := tr ++ receiveLoopTrace c.delay s.levelAt n } := by
  induction n with
  | zero => simp [receivePayloadOps, performAll, receiveLoopTrace, storeReceived, takeLevels]
  | succ n ih =>
    rw [receivePayloadOps, performAll_append, ih, performAll_append]
    generalize hb : storeReceived s.levelAt c.buf s.memory n = m
    generalize hl : (if n = 0 then ln else { ln with outCL := false }) = ln'
    have e : ({ takeLevels (8 * n) s with lines := ln', memory := m, trace := tr ++ receiveLoopTrace c.delay s.levelAt n } : State)
       = { takeLevels (8 * n) { s with memory := m } with lines := ln', trace := tr ++ receiveLoopTrace c.delay s.levelAt n } := rfl
    rw [e, performAll_receiveByte]
    simp only [performAll, perform, memWrite, emit, receiveLoopTrace, storeReceived, hb]
    subst hl
    by_cases h0 : n = 0 <;> simp [h0, takeLevels, State.levelAt, Nat.mul_succ]

/-- The Receive loop (42 R78). -/
theorem performAll_receiveLoop (n : Nat) (c : Latched) (b : Byte) (s : State) :
    (performAll (receivePayloadOps n) c b s).1 =
      { takeLevels (8 * n) s with
        lines := if n = 0 then s.lines else { s.lines with outCL := false }
        memory := storeReceived s.levelAt c.buf s.memory n
        trace := s.trace ++ receiveLoopTrace c.delay s.levelAt n } :=
  performAll_receivePayload n c b s s.lines s.trace

/-- A command's body run from its first event to completion. -/
theorem run_body (c : Latched) (b : Byte) (s : State) (hh : s.host = []) (hp : s.phase = .busy c 0 b) (hne : body c ≠ []) :
    Sys2Proof.core.run (body c).length s = .next (complete c (performAll (body c) c b s).1) :=
  run_rest c (body c) 0 b s hne hp hh rfl

/-- A command that passes validation is accepted by an idle block. -/
theorem exec_accepts {i : Instr} {s : State} (hb : s.busy = false) (hv : validate i s = .none) :
    exec i s = .next (accept i s) := by
  rw [exec_eq_issue]
  simp [issue, hb, hv]

theorem nibbleSwap_last : ∀ a : Byte, (nibbleSwap a).getLsbD 7 = a.getLsbD 3 := by decide

end Sys2Proof.Machine
end

