-- ==== Sys2Proof/Machine/Assembler.lean ====
section
/-! DEFINITION. The text of a command program's line (30 R61, R62): `;` comments, decimal and `0x`
numbers, the mnemonics and their operands. What the spec leaves open of it is log 17. -/

namespace Sys2Proof.Machine

/-- The tokens of a line. -/
inductive Token where
  | name (cs : List Char)
  | num (n : Nat)
  | comma
  | openBrace
  | closeBrace
deriving DecidableEq, Repr

/-- Why a line is not taken. -/
inductive AsmError where
  /-- A number that is neither decimal nor `0x` hexadecimal. -/
  | badNumber
  /-- The tokens form no statement of 30 R61 or R62. -/
  | noSuchStatement
  /-- A statement whose numbers do not fit (30 R61). -/
  | doesNotFit
deriving DecidableEq, Repr

/-- The value of a digit in a base of at most 16. -/
def digitValue (base : Nat) (c : Char) : Option Nat :=
  let v :=
    if 48 ≤ c.toNat ∧ c.toNat ≤ 57 then some (c.toNat - 48)
    else if 97 ≤ c.toNat ∧ c.toNat ≤ 102 then some (c.toNat - 87)
    else if 65 ≤ c.toNat ∧ c.toNat ≤ 70 then some (c.toNat - 55)
    else none
  v.filter (· < base)

/-- The number a list of digits spells on from n. -/
def digitsValue (base n : Nat) : List Char → Option Nat
  | [] => some n
  | c :: cs => (digitValue base c).bind fun v => digitsValue base (n * base + v) cs

/-- A decimal or `0x` hexadecimal number (30 R61). -/
def numberOf : List Char → Option Nat
  | '0' :: 'x' :: c :: cs => digitsValue 16 0 (c :: cs)
  | c :: cs => digitsValue 10 0 (c :: cs)
  | [] => none

/-- The token a run of characters makes, if there is a run: a number if it begins with a digit. -/
def wordToken : List Char → Option (List Token)
  | [] => some []
  | c :: cs =>
    if 48 ≤ c.toNat ∧ c.toNat ≤ 57 then (numberOf (c :: cs)).map fun n => [.num n]
    else some [.name (c :: cs)]

/-- The tokens of a line up to its comment; `run` holds the run of characters being read, reversed. -/
def tokens (run : List Char) : List Char → Option (List Token)
  | [] => wordToken run.reverse
  | c :: cs =>
    if c.toNat = 59 then wordToken run.reverse
    else if c.toNat = 32 ∨ c.toNat = 9 ∨ c.toNat = 13 then
      (wordToken run.reverse).bind fun t => (tokens [] cs).map (t ++ ·)
    else if c.toNat = 44 then
      (wordToken run.reverse).bind fun t => (tokens [] cs).map (t ++ .comma :: ·)
    else if c.toNat = 123 then
      (wordToken run.reverse).bind fun t => (tokens [] cs).map (t ++ .openBrace :: ·)
    else if c.toNat = 125 then
      (wordToken run.reverse).bind fun t => (tokens [] cs).map (t ++ .closeBrace :: ·)
    else tokens (c :: run) cs

/-- The bytes after a first one, up to the closing brace that ends the line. -/
def moreBytes : List Token → Option (List Nat)
  | [.closeBrace] => some []
  | .comma :: .num b :: rest => (moreBytes rest).map (b :: ·)
  | _ => none

/-- The bytes between braces, after the opening one. -/
def bracedBytes : List Token → Option (List Nat)
  | [.closeBrace] => some []
  | .num b :: rest => (moreBytes rest).map (b :: ·)
  | _ => none

/-- The statement a mnemonic and its operands form (30 R61, R62). -/
def stmtOf (m : List Char) (operands : List Token) : Option Stmt :=
  match operands with
  | [] =>
    if m = ['I', 'N', 'I', 'T'] then some .init
    else if m = ['L', 'I', 'N', 'E', 'S', 'T', 'A', 'T', 'E'] then some .linestate
    else if m = ['W', 'A', 'I', 'T', 'I', 'D', 'L', 'E'] then some .waitIdle
    else none
  | [.num n] =>
    if m = ['D', 'E', 'L', 'A', 'Y'] then some (.delay n)
    else if m = ['.', 'w', 'o', 'r', 'd'] then some (.word n)
    else none
  | [.num a, .comma, .num n] =>
    if m = ['W', 'R', 'I', 'T', 'E'] then some (.write a n)
    else if m = ['R', 'E', 'A', 'D'] then some (.read a n)
    else if m = ['C', 'H', 'E', 'C', 'K'] then some (.check a n)
    else none
  | .openBrace :: rest =>
    if m = ['F', 'I', 'L', 'L'] then (bracedBytes rest).map .fill else none
  | .num a :: .comma :: .openBrace :: rest =>
    if m = ['W', 'R', 'I', 'T', 'E'] then (bracedBytes rest).map (.writeBytes a) else none
  | _ => none

/-- Assemble one line: no statement for a blank or comment line (30 R61). -/
def assembleLine (text : List Char) : Except AsmError (Option Stmt) :=
  match tokens [] text with
  | none => .error .badNumber
  | some [] => .ok none
  | some (.name m :: operands) =>
    match stmtOf m operands with
    | none => .error .noSuchStatement
    | some st => if st.wellFormed then .ok (some st) else .error .doesNotFit
  | some _ => .error .noSuchStatement

/-- Assemble a program's lines, in order (30 R61). -/
def assemble : List (List Char) → Except AsmError (List Stmt)
  | [] => .ok []
  | line :: lines =>
    match assembleLine line with
    | .error e => .error e
    | .ok st => (assemble lines).map (st.toList ++ ·)

end Sys2Proof.Machine
end

