-- ==== Sys2Proof/Tests/Slice0.lean ====
section
/-! SUPPORT. Small tests, each with its source in spec/, and for each statement with hypotheses a state
that meets them. -/

namespace Sys2Proof.Machine.Tests

/-! ### Well-formedness (30 R54, R59, R61) -/

theorem test_wellFormed_length_127 : (Instr.write 0x00 127).wellFormed = true := by decide
theorem test_wellFormed_refuses_length_128 : (Instr.write 0x00 128).wellFormed = false := by decide
theorem test_wellFormed_refuses_read_200 : (Instr.read 0x10 200).wellFormed = false := by decide
theorem test_stmt_refuses_address_256 : (Stmt.write 256 1).wellFormed = false := by decide
theorem test_stmt_refuses_count_256 : (Stmt.read 1 256).wellFormed = false := by decide
theorem test_stmt_takes_count_255 : (Stmt.read 255 255).wellFormed = true := by decide
theorem test_stmt_refuses_128_braced_bytes :
    (Stmt.writeBytes 1 (List.replicate 128 0)).wellFormed = false := by decide +kernel
theorem test_stmt_refuses_braced_address_256 : (Stmt.writeBytes 256 [0]).wellFormed = false := by decide
theorem test_stmt_refuses_byte_256 : (Stmt.writeBytes 1 [256]).wellFormed = false := by decide
theorem test_stmt_refuses_fill_byte_256 : (Stmt.fill [0, 256]).wellFormed = false := by decide
theorem test_stmt_refuses_fill_of_128 : (Stmt.fill (List.replicate 128 0)).wellFormed = false := by decide +kernel
theorem test_stmt_refuses_wide_delay : (Stmt.delay (2 ^ 32)).wellFormed = false := by decide
theorem test_stmt_refuses_wide_mask : (Stmt.check (2 ^ 32) 0).wellFormed = false := by decide
theorem test_stmt_refuses_wide_value : (Stmt.check 0 (2 ^ 32)).wellFormed = false := by decide
theorem test_stmt_refuses_wide_word : (Stmt.word (2 ^ 32)).wellFormed = false := by decide

/-! ### Decoding: words written out from 30 R52, RSV1 LEN ADDR RSV0 MODE OP -/

theorem test_decode_init :
    decode (0b00000000#8 ++ 0b00000000#8 ++ 0b00000000#8 ++ 0b00000#5 ++ 0b0#1 ++ 0b00#2) = .ok .init := by
  decide
theorem test_decode_write :
    decode (0b00000000#8 ++ 0b00000011#8 ++ 0b10000010#8 ++ 0b00000#5 ++ 0b0#1 ++ 0b01#2)
      = .ok (.write 0x82 3) := by
  decide
theorem test_decode_read :
    decode (0b00000000#8 ++ 0b00000010#8 ++ 0b10000011#8 ++ 0b00000#5 ++ 0b1#1 ++ 0b01#2)
      = .ok (.read 0x83 2) := by
  decide
theorem test_decode_linestate :
    decode (0b00000000#8 ++ 0b00000000#8 ++ 0b00000000#8 ++ 0b00000#5 ++ 0b0#1 ++ 0b10#2)
      = .ok .linestate := by
  decide

/-- 95 section 2.1, the reserved words. -/
theorem test_decode_reserved :
    decode 0x00000003#32 = .error .op ∧ decode 0x00000008#32 = .error .field ∧
      decode 0x01000000#32 = .error .field ∧ decode 0x00000100#32 = .error .operand ∧
      decode 0x00010002#32 = .error .operand ∧ decode 0x00000004#32 = .error .operand ∧
      decode 0x00000006#32 = .error .operand ∧ decode 0xFFFFFFFF#32 = .error .op := by
  decide

/-- 95 section 2.1: lengths 128 to 255 decode. -/
theorem test_decode_long :
    decode 0x00800001#32 = .ok (.write 0 128) ∧ decode 0x00C81005#32 = .ok (.read 0x10 200) := by
  decide

theorem test_table_words :
    decodeTableWord 32 0x00000000 = some .init ∧ decodeTableWord 32 0x007F0001 = some (.write 0 127) ∧
      decodeTableWord 32 0x00001205 = some (.read 0x12 0) ∧
      decodeTableWord 32 0x00000002 = some .linestate ∧ decodeTableWord 32 3 = none := by
  decide

/-- 30 R56: the word of `write(0x82, ..., 3)`. -/
theorem test_encode_write : encode (.write 0x82 3) = 0x00038201#32 := by decide

/-! ### Operands and flags -/

/-- 95 section 2.3. -/
theorem test_nibbleSwap :
    nibbleSwap 0x01 = 0x10 ∧ nibbleSwap 0x82 = 0x28 ∧ nibbleSwap 0x5A = 0xA5 ∧ nibbleSwap 0xF0 = 0x0F := by
  decide

/-- 95 section 2.4: the samples 10100101 and 00111100, first on the left. -/
theorem test_receivedByte :
    receivedByte (fun j => [true, false, true, false, false, true, false, true].getD j false) = 0xA5 ∧
      receivedByte (fun j => [false, false, true, true, true, true, false, false].getD j false) = 0x3C := by
  decide

/-- 95 section 2.4: 0x28 leaves as 00010100. -/
theorem test_bitsOut : bitsOut 0x28 = [false, false, false, true, false, true, false, false] := by decide

/-- 10 R19. -/
theorem test_status :
    ({ State.reset with initDone := true, err := .len } : State).status = 0x22#32 ∧
      ({ State.reset with initDone := true, line := true } : State).status = 0x06#32 := by
  decide

/-! ### One step of each command -/

/-- The answer of a step put to a question, false where it stopped. -/
def nextIs (o : Host.Outcome State Fault Refusal) (p : State → Bool) : Bool :=
  match o with
  | .next s => p s
  | .fault _ | .refused _ => false

/-- An idle block after an INIT. -/
def ready : State := { State.reset with lines := Lines.configured, initDone := true }

/-- `ready` with a host action ahead. -/
def facing (a : HostAction) : State := { ready with host := [a] }

/-- A buffer of 127 bytes that does not begin at address 0. -/
def window : Binding := ⟨10, 127⟩

/-- A command at a position of its body. -/
def running (i : Instr) (k : Nat) : State := { ready with phase := .busy (latch i 100 window) k 0 }

/-- 43 R85: BUSY = 1 once INIT is accepted. -/
theorem test_init_accepted :
    nextIs (step (State.reset.withFetchWord 32 0x00000000)) (fun s => s.status == 0x01#32) = true := by
  decide

/-- 95 T-I1: the tenth event of INIT is a wait, and INIT_DONE is set with it. -/
theorem test_init_last_event :
    nextIs (step { running .init 9 with initDone := false })
      (fun s => s.status == 0x02#32 && s.trace == [.wait 100]) = true := by
  decide

/-- 95 section 2.2: WRITE before INIT gives STATUS 0x30. -/
theorem test_write_before_init :
    nextIs (step (State.reset.withFetchWord 32 0x00038201)) (fun s => s.status == 0x30#32) = true := by
  decide

/-- 42 R74: the fortieth-third event of a WRITE of three bytes is followed by BufRd(2). -/
theorem test_write_reads_last_byte_first :
    nextIs (step { running (.write 0x82 3) 43 with memory := [(10, 0x00), (11, 0x01), (12, 0x02)] })
      (fun s => s.trace == [.bufRd 2 0x02]) = true := by
  decide +kernel

/-- 95 section 2.2: READ of 200 bytes before INIT gives STATUS 0x20. -/
theorem test_read_too_long :
    nextIs (step (State.reset.withFetchWord 32 0x00C81005)) (fun s => s.status == 0x20#32) = true := by
  decide

/-- 42 R78: after the eight bits of its byte a READ of one byte writes it at index 0. -/
theorem test_read_writes_byte :
    nextIs (step { ready with phase := .busy (latch (.read 0x0F 1) 100 window) 83 0xFF })
      (fun s => s.trace == [.bufWr 0 0xFF] && s.memory == [(10, 0xFF)]) = true := by
  decide +kernel

/-- 95 section 2.7: LINE takes the level drawn and BUSY falls. -/
theorem test_linestate_sets_line :
    nextIs (step { running .linestate 0 with diInput := [true] })
      (fun s => s.status == 0x06#32 && s.trace == [.smp .DI true]) = true := by
  decide

/-- 95 section 2.7: LINESTATE is accepted before INIT. -/
theorem test_linestate_before_init :
    nextIs (step (State.reset.withFetchWord 32 0x00000002)) (fun s => s.status == 0x01#32) = true := by
  decide

/-- 95 section 2.9: DELAY ignores bits 31:16. -/
theorem test_delay_write :
    nextIs (step (facing (.writeReg 2 32 0x12340032 window))) (fun s => s.delayWord == 0x32#32) = true := by
  decide

/-! ### The assembler (30 R61) -/

/-- `WRITE 0x82, (0x00, 1)` with braces for the parentheses, and a comment. -/
theorem test_assemble_write_bytes :
    assembleLine (['W', 'R', 'I', 'T', 'E', ' ', '0', 'x', '8', '2', ',', ' ', Char.ofNat 123, '0', 'x', '0', '0',
      ',', '1', Char.ofNat 125, ' ', ';', 'c']) = .ok (some (.writeBytes 0x82 [0, 1])) := by
  decide

theorem test_assemble_refuses_wide_address :
    assembleLine ['R', 'E', 'A', 'D', ' ', '2', '5', '6', ',', '1'] = .error .doesNotFit := by
  decide

/-- 30 R62: WAITIDLE after each command line of a program of 95, and none where the text has none. -/
theorem test_program_waits :
    programActions true window [.delay 50, .init, .linestate]
        = some [.writeReg 2 32 50 window, .writeReg 0 32 0 window, .waitIdle, .writeReg 0 32 2 window,
          .waitIdle] ∧
      programActions false window [.init, .linestate]
        = some [.writeReg 0 32 0 window, .writeReg 0 32 2 window] := by
  decide

/-! ### Witnesses: states that meet the statements' hypotheses -/

theorem witness_ReservedWordsAreExactlyTheListedOnes :
    decode 0x00000003#32 = .error .op ∧ (facing (.writeReg 0 32 0x00000003 window)).busy = false ∧
      (facing (.writeReg 0 32 0x00000003 window)).held = none ∧
      (facing (.writeReg 0 32 0x00000003 window)).host = .writeReg 0 32 0x00000003#32 window :: [] := by
  decide

theorem witness_StatementWordsAreTheCallsWords :
    255 < 256 ∧ 0 < 256 ∧ (List.replicate 255 0).length < 256 := ⟨by decide, by decide, by rw [List.length_replicate]; decide⟩

theorem witness_InitAndLinestateAreAcceptedWhileIdle : State.reset.busy = false := by decide

theorem witness_WriteAndReadAreAcceptedAfterInit :
    ready.busy = false ∧ ready.initDone = true ∧ (127 : Byte).toNat ≤ 127 := by decide

theorem witness_TransfersAreRejectedByLengthThenByInit :
    State.reset.busy = false ∧ 127 < (128 : Byte).toNat ∧ (127 : Byte).toNat ≤ 127 ∧
      State.reset.initDone = false := by
  decide

theorem witness_CommandWritesAreValidatedInOrder_premises :
    ({ State.reset with host := [.writeReg 0 32 0x007F0001 window] } : State).busy = false ∧
      (facing (.writeReg 0 32 0x007F0001 window)).busy = false ∧
      (facing (.writeReg 0 32 0x007F0001 window)).held = none := by
  decide

/-- One word for each clause, at the lengths where the clauses meet. -/
theorem witness_CommandWritesAreValidatedInOrder_clauses :
    decode 0x00C80003#32 = .error .op ∧
      (decode 0x00800001#32 = .ok (.write 0 128) ∧ isTransfer (.write 0 128) = true ∧
        127 < (Instr.write 0 128).length) ∧
      (decode 0x007F0001#32 = .ok (.write 0 127) ∧ (Instr.write 0 127).length ≤ 127 ∧
        State.reset.initDone = false) ∧
      (decode 0x00000000#32 = .ok .init ∧ isTransfer .init = false ∧ ready.initDone = true) := by
  decide

theorem witness_WritesAreHeldWhileBusy :
    (running (.write 0x82 3) 5).busy = true ∧ (running (.write 0x82 3) 5).held = none ∧
      ({ running (.write 0x82 3) 5 with host := [.writeReg 0 32 0 window] } : State).host
        = .writeReg 0 32 0#32 window :: [] ∧
      ({ running (.write 0x82 3) 5 with host := [.writeReg 2 32 50 window] } : State).host
        = .writeReg 2 32 50#32 window :: [] := by
  decide

theorem witness_HeldWriteProceedsOnceIdle :
    ({ ready with held := some (.cmd 0 window), host := [.readReg 1 32] } : State).busy = false ∧
      (∀ a, ([.readReg 1 32] : List HostAction).head? = some a → a.ignoresStall = false) ∧
      ({ ready with held := some (.delay 50), host := [.tick] } : State).host = .tick :: [] :=
  ⟨by decide, by intro a h; cases h; decide, rfl⟩

theorem witness_HeldWriteWaitsForTheCommandToEnd :
    ({ running .init 3 with held := some (.cmd 0 window), host := [.readReg 1 32] } : State).busy = true ∧
      (∃ s', step { running .init 3 with held := some (.cmd 0 window), host := [.readReg 1 32] } = .next s') ∧
      ([.readReg 1 32] : List HostAction).head? ≠ some .assertReset ∧
      (HostAction.readReg 1 32).ignoresStall = false :=
  ⟨by decide, ⟨_, rfl⟩, by decide, by decide⟩

theorem witness_StepRunsTheDecodedCommand :
    decode 0x00038201#32 = .ok (.write 0x82 3) ∧ (facing (.writeReg 0 32 0x00038201 window)).held = none ∧
      (facing (.writeReg 0 32 0x00038201 window)).host = .writeReg 0 32 0x00038201#32 window :: [] ∧
      (facing (.writeReg 0 32 0x00038201 window)).busy = false ∧ (running .init 3).busy = true := by
  decide

theorem witness_RegisterReadsReturnTheirFields :
    (facing (.readReg 0 32)).held = none ∧ (facing (.readReg 1 32)).host = .readReg 1 32 :: [] ∧
      (facing (.readReg 2 32)).host = .readReg 2 32 :: [] := by
  decide

theorem witness_StatusIgnoresAndDelayStoresWrites :
    (facing (.writeReg 1 32 0xFFFFFFFF window)).held = none ∧ (facing (.writeReg 2 32 0 window)).busy = false ∧
      (facing (.writeReg 2 32 0 window)).host = .writeReg 2 32 0#32 window :: [] := by
  decide

/-- The last byte below LEN, the last byte bound above it. -/
theorem witness_ForbiddenAccessesAreRefused :
    2 < 3 ∧ (31 ≠ 32) ∧ (facing (.readReg 3 32)).held = none ∧
      (facing (.writeReg 2 16 0 window)).host = .writeReg 2 16 0#32 window :: [] ∧
      (running (.write 0x82 3) 5).phase = .busy (latch (.write 0x82 3) 100 window) 5 0 ∧
      2 < (latch (.write 0x82 3) 100 window).len.toNat ∧ 126 < window.size ∧
      ({ running (.write 0x82 3) 5 with host := [.writeBuffer (window.base + 126) 1] } : State).host
        = .writeBuffer (window.base + 126) 1 :: [] ∧
      (facing (.driveLine .CE true)).host = .driveLine .CE true :: [] ∧
      ({ facing (.driveLine .CE true) with held := some (.delay 3) } : State).held ≠ none := by
  decide

/-- The first address above the running command's buffer, the last that its READ fills and the first that it
does not. -/
theorem witness_HostReachesTheBuffer :
    ({ running (.read 0x0F 1) 50 with host := [.writeBuffer 137 1] } : State).held = none ∧
      (running (.read 0x0F 1) 50).phase = .busy (latch (.read 0x0F 1) 100 window) 50 0 ∧
      (latch (.read 0x0F 1) 100 window).op = .xfer ∧ (latch (.read 0x0F 1) 100 window).mode = .receive ∧
      window.base + (1 : Byte).toNat ≤ 137 ∧ window.base + window.size ≤ 137 ∧
      window.base ≤ 10 ∧ 10 < window.base + (1 : Byte).toNat ∧ ¬11 < window.base + (1 : Byte).toNat := by
  decide

theorem witness_PriorStaysWhileACommandRuns :
    (running .init 3).busy = true ∧ ∃ s', step (running .init 3) = .next s' := ⟨by decide, _, rfl⟩

theorem witness_CheckAndWaitidleReadStatus :
    (facing (.check 0xF3 0x02)).held = none ∧ (facing (.check 0xF3 0x02)).status &&& 0xF3#32 = 0x02#32 ∧
      (facing (.check 0xF3 0x03)).status &&& 0xF3#32 ≠ 0x03#32 ∧
      (facing .waitIdle).busy = false ∧
      ({ running .init 0 with host := [.waitIdle] } : State).busy = true := by
  decide

/-- For `FirstInitMakesOneCleanPulse`, and `InitRunsToItsEnd` before the first INIT. -/
theorem witness_FirstInitMakesOneCleanPulse :
    State.reset.phase = .idle ∧ State.reset.host = [] ∧ State.reset.lines = Lines.reset := by decide

/-- For the statements on whole commands: an idle, initialised block with nothing queued, at LEN = 0 and
LEN = 127. -/
theorem witness_whole_commands :
    ready.phase = .idle ∧ ready.host = [] ∧ ready.initDone = true ∧ (0 : Byte).toNat ≤ 127 ∧
      (127 : Byte).toNat ≤ 127 ∧ ready.Inv := by
  decide

/-- For `ReadFillsTheBufferMsbFirst`: an index and a bit at the ends of their ranges. -/
theorem witness_ReadFillsTheBufferMsbFirst :
    126 < (127 : Byte).toNat ∧ 7 < 8 ∧ (127 : Byte).toNat ≤ 127 := by decide

theorem witness_EveryStepKeepsTheInvariant :
    ready.Inv ∧ ∃ s', step (facing (.writeReg 0 32 0 window)) = .next s' := ⟨by decide, _, rfl⟩

theorem witness_OnlyOutputsAreDriven :
    (running .init 6).Inv ∧ ∃ s', step (running .init 6) = .next s' ∧
      s'.trace = (running .init 6).trace ++ [.lvl .CE true] :=
  ⟨by decide, _, rfl, rfl⟩

theorem witness_LinesChangeOnlyByTheirEvents :
    (∃ s', step (running .init 0) = .next s') ∧
      (running .init 0).host.head? ≠ some .assertReset ∧ ready.busy = false :=
  ⟨⟨_, rfl⟩, by decide, by decide⟩

/-- A state for each way in which the block moves. -/
theorem witness_BusyBlockMakesOneEventPerStep :
    (running .init 0).Inv ∧ (running .init 0).busy = true ∧ (running .init 0).host = [] ∧
      ({ running .init 0 with host := [.tick] } : State).Inv ∧
      ({ running .init 0 with host := [.waitIdle] } : State).held = none ∧
      ({ running .init 0 with held := some (.delay 3), host := [.readReg 1 32] } : State).held ≠ none ∧
      (HostAction.readReg 1 32).ignoresStall = false := by
  decide

theorem witness_EveryAcceptedCommandEnds :
    (running .init 0).Inv ∧ (running .init 0).phase = .busy (latch .init 100 window) 0 0 ∧
      (running .init 0).host = List.replicate 0 .tick ++ [] ∧
      ({ running .init 0 with host := [.tick, .waitIdle] } : State).host = List.replicate 1 .tick ++ [.waitIdle] ∧
      ({ running .init 0 with host := [.waitIdle] } : State).held = none ∧
      ({ running .init 0 with held := some (.delay 3), host := [.readReg 1 32] } : State).held ≠ none ∧
      (HostAction.readReg 1 32).ignoresStall = false ∧ 9 < (body (latch .init 100 window)).length - 0 := by
  decide

theorem witness_BusyFallsWithTheLastEvent :
    ∃ s', step (running .init 9) = .next s' ∧ (running .init 9).busy = true ∧ s'.busy = false ∧
      (running .init 9).host.head? ≠ some .assertReset :=
  ⟨_, rfl, by decide, by decide, by decide⟩

theorem witness_InitDoneFollowsInitAlone :
    ∃ s', step { running .init 9 with initDone := false } = .next s' ∧ s'.initDone = true ∧
      (running .init 9).host.head? ≠ some .assertReset :=
  ⟨_, rfl, by decide, by decide⟩

theorem witness_LineFollowsLinestateAlone :
    ∃ s', step { running .linestate 0 with diInput := [true] } = .next s' ∧
      s'.line ≠ (running .linestate 0).line ∧
      (running .linestate 0).host.head? ≠ some .assertReset :=
  ⟨_, rfl, by decide, by decide⟩

theorem witness_ErrFollowsIssuedCommandsAlone :
    ∃ s', step (facing (.writeReg 0 32 3 window)) = .next s' ∧ s'.err ≠ (facing (.writeReg 0 32 3 window)).err ∧
      (facing (.writeReg 0 32 3 window)).host.head? ≠ some .assertReset :=
  ⟨_, rfl, by decide, by decide⟩

theorem witness_DelayAndCommandAreFixedWhileBusy :
    (running .init 4).phase = .busy (latch .init 100 window) 4 0 ∧ (∃ s', step (running .init 4) = .next s') ∧
      (running .init 4).host.head? ≠ some .assertReset :=
  ⟨by decide, ⟨_, rfl⟩, by decide⟩

theorem witness_SendAndInitNeverSample :
    (running (.write 0x82 3) 5).phase = .busy (latch (.write 0x82 3) 100 window) 5 0 ∧
      (latch (.write 0x82 3) 100 window).mode = .send ∧ (latch (.write 0x82 3) 100 window).op = .xfer ∧
      nextIs (step (running (.write 0x82 3) 5)) (fun _ => true) = true := by
  decide +kernel

theorem witness_BufferAccessesAreTheCommandsOwn :
    (running (.write 0x82 3) 43).phase = .busy (latch (.write 0x82 3) 100 window) 43 0 ∧
      nextIs (step { running (.write 0x82 3) 43 with memory := [(12, 7)] })
        (fun s' => s'.trace == [.bufRd 2 7]) = true ∧
      (running (.read 0x0F 1) 83).phase = .busy (latch (.read 0x0F 1) 100 window) 83 0 ∧
      nextIs (step (running (.read 0x0F 1) 83)) (fun s' => s'.trace == [.bufWr 0 0]) = true := by
  decide +kernel

/-- A READ of one byte that stores into its buffer, at the addresses next to it. -/
theorem witness_TransfersStayInsideTheirBuffer :
    (running (.read 0x0F 1) 83).phase = .busy (latch (.read 0x0F 1) 100 window) 83 0 ∧
      (latch (.read 0x0F 1) 100 window).len.toNat ≤ window.size ∧ 9 < window.base ∧
      window.base + window.size ≤ 137 ∧ (running (.read 0x0F 1) 83).host = [] ∧
      nextIs (step (running (.read 0x0F 1) 83)) (fun _ => true) = true := by
  decide +kernel

theorem witness_EveryStepKeepsTheBufferCanonical :
    (facing (.writeBuffer 5 1)).memory.wf = true ∧ ∃ s', step (facing (.writeBuffer 5 1)) = .next s' :=
  ⟨by decide, _, rfl⟩

theorem witness_OnlyAFailedCheckFaults :
    ∃ f, step (facing (.check 1 1)) = .fault f := ⟨_, rfl⟩

theorem witness_DutifulHostIsNeverRefused :
    (facing (.writeReg 0 32 0 window)).Inv ∧
      ∀ a, (facing (.writeReg 0 32 0 window)).host.head? = some a →
        a.dutiful (facing (.writeReg 0 32 0 window)) = true := by
  refine ⟨by decide, fun a h => ?_⟩
  cases h
  decide

theorem witness_reset_actions :
    ({ running (.read 0x0F 1) 50 with host := [.assertReset] } : State).host = .assertReset :: [] ∧
      ∃ s', step { running (.read 0x0F 1) 50 with host := [.assertReset] } = .next s' :=
  ⟨by decide, _, rfl⟩

theorem witness_ResetCutsAReadAtAPrefix :
    ready.phase = .idle ∧ ready.host = [] ∧ ready.initDone = true ∧ (2 : Byte).toNat ≤ 127 ∧
      124 < eventCount (.read 0x83 2) := by
  decide

/-- Half a microsecond into the run, a wait of 1 microsecond. -/
theorem witness_StampedTracesLastTheirWaits : Timed [⟨.wait 1, 0.5, 1.5⟩] :=
  have one : ((1 : Micros).toNat : ℝ) = 1 := by simp
  ⟨by rw [one]; norm_num, by rw [one]; linarith [Config.tWaitSlack.coe_nonneg]⟩

end Sys2Proof.Machine.Tests
end

section
/-! PROOFS. Time (00 R11, 40 R66, R67): the waits of a trace bound its length from below. -/

namespace Sys2Proof.Machine

/-- The waits of a trace add up over its events (70 R121). -/
theorem waitedMicros_cons (e : Event) (es : List Event) :
    waitedMicros (e :: es) = waitedMicros [e] + waitedMicros es := by
  cases e <;> simp [waitedMicros]

/-- 40 R66's lower bound, for one event of either kind: a wait may last longer than asked, never shorter. -/
theorem Stamped.lasts.start_add_waitedMicros_le {x : Stamped} (h : x.lasts) :
    x.start + waitedMicros [x.event] ≤ x.stop := by
  obtain ⟨event, start, stop⟩ := x
  cases event with
  | wait d =>
    obtain ⟨atLeast, -⟩ := h
    simpa [waitedMicros] using atLeast
  | dir | lvl | smp | bufRd | bufWr =>
    have instant : stop = start := h
    simp [waitedMicros, instant]

/-- Stamps run forward in time, as `T_GAP` is not negative (40 R67). -/
theorem Timed.stop_le_start {x y : Stamped} {rest : List Stamped} (h : Timed (x :: y :: rest)) :
    x.stop ≤ y.start := by
  obtain ⟨-, gap, -⟩ := h
  have gap_nonneg := Config.tGap.coe_nonneg
  linarith

/-- Settles O51, by induction on the events after the first: the first event lasts its own wait, and the next
one starts no earlier than it stops. -/
theorem stampedTracesLastTheirWaits : Obligations.StampedTracesLastTheirWaits := by
  intro x xs timed
  induction xs generalizing x with
  | nil =>
    have lasts : x.lasts := timed
    exact lasts.start_add_waitedMicros_le
  | cons y rest ih =>
    have ⟨lasts, _, timedRest⟩ := timed
    calc x.start + waitedMicros ((x :: y :: rest).map Stamped.event)
        = x.start + waitedMicros [x.event] + waitedMicros ((y :: rest).map Stamped.event) := by
          rw [List.map_cons, waitedMicros_cons, Nat.cast_add, add_assoc]
      _ ≤ x.stop + waitedMicros ((y :: rest).map Stamped.event) := by
          gcongr; exact lasts.start_add_waitedMicros_le
      _ ≤ y.start + waitedMicros ((y :: rest).map Stamped.event) := by
          gcongr; exact timed.stop_le_start
      _ ≤ ((y :: rest).getLast (List.cons_ne_nil y rest)).stop := ih y timedRest
      _ = ((x :: y :: rest).getLast (List.cons_ne_nil x (y :: rest))).stop := by
          rw [List.getLast_cons_cons]

end Sys2Proof.Machine
end

section
/-! PROOFS. The block's state (10): a step makes an event, makes none, or is reset. From that: the rules
over every step, the invariant among them, and what the host's accesses to the registers do. -/

namespace Sys2Proof.Machine

/-! ### A step makes an event, makes none, or is reset -/

/-- What a step does to the block in which the running command `c`, at position `k` with `b` the byte being
shifted, does its primitive `op` (10 R26, 43 R87). -/
structure MakesEvent (s s' : State) (c : Latched) (k : Nat) (b : Byte) (op : MicroOp) : Prop where
  phase : s.phase = .busy c k b
  at_position : (body c)[k]? = some op
  trace : s'.trace = s.trace ++ [eventOf op c b s]
  lines : s'.lines = (perform op c b s).1.lines
  memory : s'.memory = (perform op c b s).1.memory
  line : s'.line = (perform op c b s).1.line
  err : s'.err = s.err
  delay : s'.delay = s.delay
  moves : (k + 1 < (body c).length ∧ s'.initDone = s.initDone ∧ ∃ b', s'.phase = .busy c (k + 1) b') ∨
    (k + 1 = (body c).length ∧ s'.initDone = (s.initDone || decide (c.op = .init)) ∧ s'.phase = .idle)

/-- What every other step but reset leaves alone: a host access, a write held or let through, or nothing. -/
structure MakesNoEvent (s s' : State) : Prop where
  trace : s'.trace = s.trace
  lines : s'.lines = s.lines
  line : s'.line = s.line
  initDone : s'.initDone = s.initDone
  phase_of_busy : s.busy = true → s'.phase = s.phase
  delay_of_busy : s.busy = true → s'.delay = s.delay

/-- A primitive neither reads nor changes what lies beside the block. -/
theorem perform_besides (op : MicroOp) (c : Latched) (b : Byte) (s : State) (h : List HostAction)
    (hd : Option HostWrite) (a : Option Word) (p : Binding) :
    perform op c b (s.besides h hd a p) =
      ((perform op c b s).1.besides h hd a p, (perform op c b s).2) := by
  cases op <;> simp only [perform, sample_eq] <;> rfl

theorem busy_congr {s s' : State} (h : s'.phase = s.phase) : s'.busy = s.busy := by
  simp [State.busy, h]

theorem phase_eq_idle_of_not_busy {s : State} (h : s.busy = false) : s.phase = .idle := by
  cases hp : s.phase with
  | idle => rfl
  | busy c k b => simp [State.busy, hp] at h

/-- Where a Busy block's move answers a state, it is the running command's next event. -/
theorem makesEvent_of_advance {s s' : State} {h : List HostAction} (hb : s.busy = true)
    (ha : advance (s.besides h s.held s.answer s.binding) = .next s') :
    ∃ c k b op, MakesEvent s s' c k b op := by
  obtain ⟨idle, -⟩ | ⟨c, k, b, op, phase, at_position, moved⟩ := advance_cases ha
  · have idle : s.phase = .idle := idle
    simp [State.busy, idle] at hb
  refine ⟨c, k, b, op, ?_⟩
  have inside : k < (body c).length := (List.getElem?_eq_some_iff.1 at_position).1
  rw [perform_besides] at moved
  obtain ⟨more, rfl⟩ | ⟨last, rfl⟩ := moved <;>
    refine
      { phase, at_position, lines := rfl, memory := rfl, line := rfl
        trace := perform_trace op c b s
        err := perform_err op c b s
        delay := perform_delay op c b s
        moves := ?_ }
  · exact .inl ⟨more, perform_initDone op c b s, _, rfl⟩
  · exact .inr ⟨by omega, by simp, rfl⟩

/-- A step makes one event of the running command, makes none, or is reset. -/
theorem step_event_cases {s s' : State} (hs : step s = .next s') :
    (∃ c k b op, MakesEvent s s' c k b op) ∨ MakesNoEvent s s' ∨
      (s.host.head? = some .assertReset ∧ s'.trace = s.trace) := by
  cases step_effect hs with
  | event h _ hb _ ha => exact .inl (makesEvent_of_advance hb ha)
  | wasReset rest hh => exact .inr (.inr ⟨by rw [hh]; rfl, rfl⟩)
  | quiet | peeked | hold | filled => exact .inr (.inl ⟨rfl, rfl, rfl, rfl, fun _ => rfl, fun _ => rfl⟩)
  | rejected | accepted | delayed =>
    exact .inr (.inl ⟨rfl, rfl, rfl, rfl, by simp [*], by simp [*]⟩)

/-- The same of a step that is not reset. -/
theorem step_event_cases_of_not_reset {s s' : State} (hs : step s = .next s')
    (hr : s.host.head? ≠ some .assertReset) :
    (∃ c k b op, MakesEvent s s' c k b op) ∨ MakesNoEvent s s' := by
  obtain event | noEvent | ⟨reset, -⟩ := step_event_cases hs
  · exact .inl event
  · exact .inr noEvent
  · exact absurd reset hr

theorem MakesEvent.busy {s s' : State} {c k b op} (h : MakesEvent s s' c k b op) : s.busy = true :=
  (busy_iff s).2 ⟨c, k, b, h.phase⟩

/-! ### Events and lines -/

/-- What a primitive does to the lines is what its event says (10 R14). -/
theorem perform_lines_eq_after (op : MicroOp) (c : Latched) (b : Byte) (s : State) :
    (perform op c b s).1.lines = s.lines.after (eventOf op c b s) := by
  rw [perform_lines]
  cases op <;> rfl

/-- Settles O34: the one event of a step that makes one, and the empty list otherwise. -/
theorem linesChangeOnlyByTheirEvents : Obligations.LinesChangeOnlyByTheirEvents := by
  intro s s' hs hr
  obtain ⟨c, k, b, op, event⟩ | noEvent := step_event_cases_of_not_reset hs hr
  · refine ⟨[eventOf op c b s], event.trace, le_rfl, ?_, fun idle => ?_⟩
    · rw [event.lines, perform_lines_eq_after]
      rfl
    · rw [event.busy] at idle
      cases idle
  · exact ⟨[], by simpa using noEvent.trace, by simp, noEvent.lines, fun _ => rfl⟩

/-! ### The registers and the running command -/

/-- Settles O37: a step that makes no event leaves a Busy block Busy, and one that makes an event leaves it
Idle only after the last. -/
theorem busyFallsWithTheLastEvent : Obligations.BusyFallsWithTheLastEvent := by
  intro s s' hs hr busy idle
  obtain ⟨c, k, b, op, event⟩ | noEvent := step_event_cases_of_not_reset hs hr
  · obtain ⟨-, -, b', still⟩ | ⟨last, -, -⟩ := event.moves
    · simp [State.busy, still] at idle
    · exact ⟨c, k, b, _, event.phase, last, event.trace⟩
  · rw [busy_congr (noEvent.phase_of_busy busy), busy] at idle
    cases idle

theorem body_of_init {c : Latched} (h : c.op = .init) : body c = initOps := by
  simp [body, h]

theorem body_of_linestate {c : Latched} (h : c.op = .linestate) : body c = [.sampleLine] := by
  simp [body, h, linestateOps]

/-- Settles O38: only the step that completes a command can change INIT_DONE, and only if it is an INIT. -/
theorem initDoneFollowsInitAlone : Obligations.InitDoneFollowsInitAlone := by
  intro s s' hs hr
  obtain ⟨c, k, b, op, event⟩ | noEvent := step_event_cases_of_not_reset hs hr
  · obtain ⟨-, same, -⟩ | ⟨last, done, idle⟩ := event.moves
    · simp_all
    · refine ⟨fun h => by simp [done, h], fun was now => ?_⟩
      have isInit : c.op = .init := by simpa [done, was] using now
      rw [body_of_init isInit] at last
      exact ⟨c, k, b, event.phase, isInit, last, idle⟩
  · simp_all [noEvent.initDone]

/-- Only LINESTATE's sample changes LINE (10 R22). -/
theorem op_eq_sampleLine_of_line_ne {op : MicroOp} {c : Latched} {b : Byte} {s : State}
    (h : (perform op c b s).1.line ≠ s.line) : op = .sampleLine := by
  rw [perform_line] at h
  cases op with
  | sampleLine => rfl
  | _ => exact absurd rfl h

/-- Settles O39: the primitive that changes LINE is the one primitive of a LINESTATE, so the step that does it
completes the command. -/
theorem lineFollowsLinestateAlone : Obligations.LineFollowsLinestateAlone := by
  intro s s' hs hr changed
  obtain ⟨c, k, b, op, event⟩ | noEvent := step_event_cases_of_not_reset hs hr
  · obtain rfl : op = .sampleLine := op_eq_sampleLine_of_line_ne (event.line ▸ changed)
    have isLinestate : c.op = .linestate := mem_body (mem_of_get event.at_position)
    have level : s'.line = s.levelAt 0 := by rw [event.line, perform_line]
    have moves := event.moves
    simp only [body_of_linestate isLinestate, List.length_singleton] at moves
    obtain ⟨more, -⟩ | ⟨last, -, idle⟩ := moves
    · omega
    · obtain rfl : k = 0 := by omega
      exact ⟨c, b, event.phase, isLinestate, idle, level⟩
  · exact absurd noEvent.line changed

/-- Settles O40: of the effects a step can have, only a rejection and an acceptance write ERR. -/
theorem errFollowsIssuedCommandsAlone : Obligations.ErrFollowsIssuedCommandsAlone := by
  intro s s' hs hr changed
  cases step_effect hs with
  | rejected h hd p e w buf hb hw => exact ⟨hb, w, buf, hw⟩
  | accepted h hd i w buf hb hw => exact ⟨hb, w, buf, hw⟩
  | event h _ hb _ ha =>
    obtain ⟨c, k, b, op, event⟩ := makesEvent_of_advance hb ha
    exact absurd event.err changed
  | wasReset rest hh => exact absurd (by rw [hh]; rfl) hr
  | quiet | peeked | hold | delayed | filled => exact absurd rfl changed

/-- Settles O41: an event moves the position by one or completes the command, and a step that makes none
leaves a Busy block's phase and DELAY alone. -/
theorem delayAndCommandAreFixedWhileBusy : Obligations.DelayAndCommandAreFixedWhileBusy := by
  intro s s' c k b phase hs hr
  obtain ⟨c', k', b', op, event⟩ | noEvent := step_event_cases_of_not_reset hs hr
  · refine ⟨event.delay, ?_⟩
    obtain ⟨rfl, rfl, rfl⟩ : c = c' ∧ k = k' ∧ b = b' := by simpa [phase] using event.phase
    obtain ⟨-, -, next⟩ | ⟨-, -, idle⟩ := event.moves
    · exact .inr (.inr next)
    · exact .inl idle
  · have busy : s.busy = true := (busy_iff s).2 ⟨c, k, b, phase⟩
    exact ⟨noEvent.delay_of_busy busy, .inr (.inl (noEvent.phase_of_busy busy ▸ phase))⟩

/-! ### The invariant (10 R29) -/

theorem phaseSafe_of_idle {s : State} (h : s.phase = .idle) : s.phaseSafe = s.lines.atRest := by
  simp [State.phaseSafe, h]

theorem phaseSafe_iff_of_busy {s : State} {c : Latched} {k : Nat} {b : Byte} (h : s.phase = .busy c k b) :
    s.phaseSafe = true ↔ k < (body c).length ∧ (c.op = .xfer → s.initDone = true) ∧
      restIsSafe (c.op = .init) s.lines ((body c).drop k) = true := by
  simp [State.phaseSafe, h, and_assoc, imp_iff_not_or]

/-- The invariant depends on the lines, INIT_DONE, the phase and the memory's form, and on nothing else. -/
theorem inv_of_same_block {s s' : State} (inv : s.Inv) (lines : s'.lines = s.lines)
    (initDone : s'.initDone = s.initDone) (phase : s'.phase = s.phase) (wf : s'.memory.wf = true) : s'.Inv := by
  obtain ⟨notDriven, dirs, safe, -⟩ := inv
  exact ⟨lines ▸ notDriven, by rwa [lines, initDone],
    by simpa only [State.phaseSafe, lines, initDone, phase] using safe, wf⟩

theorem restIsSafe_nil {sets : Bool} {ln : Lines} :
    restIsSafe sets ln [] = true ↔ ln.atRest = true ∧ (sets = true → ln.dirsSet = true) := by
  cases sets <;> simp [restIsSafe]

theorem dirDI_setDir_initDir {ln : Lines} (l : Line) (h : ln.dirDI ≠ .output) :
    (ln.setDir l (initDir l)).dirDI ≠ .output := by
  cases l <;> simp [Lines.setDir, initDir, h]

theorem dirsSet_setDir_initDir {ln : Lines} (l : Line) (h : ln.dirsSet = true) :
    (ln.setDir l (initDir l)).dirsSet = true := by
  cases l <;> simp_all [Lines.dirsSet, Lines.setDir, initDir]

/-- A safe primitive either leaves every direction or gives one line INIT's. -/
theorem perform_lines_of_safe {sets : Bool} {op : MicroOp} {ops : List MicroOp} {c : Latched} {b : Byte}
    {s : State} (h : restIsSafe sets s.lines (op :: ops) = true) :
    (∃ l, (perform op c b s).1.lines = s.lines.setDir l (initDir l)) ∨
      (∃ l v, (perform op c b s).1.lines = s.lines.setOut l v) ∨ (perform op c b s).1.lines = s.lines := by
  rw [perform_lines]
  cases op with
  | setDir l m =>
    obtain ⟨rfl, -⟩ : m = initDir l ∧ _ := by simpa [restIsSafe] using h
    exact .inl ⟨l, rfl⟩
  | drive l v => exact .inr (.inl ⟨l, v, rfl⟩)
  | shiftOut i => exact .inr (.inl ⟨.DO, _, rfl⟩)
  | _ => exact .inr (.inr rfl)

theorem perform_dirDI_of_safe {sets : Bool} {op : MicroOp} {ops : List MicroOp} {c : Latched} {b : Byte}
    {s : State} (h : restIsSafe sets s.lines (op :: ops) = true) (notDriven : s.lines.dirDI ≠ .output) :
    (perform op c b s).1.lines.dirDI ≠ .output := by
  obtain ⟨l, e⟩ | ⟨l, v, e⟩ | e := perform_lines_of_safe (c := c) (b := b) h <;> rw [e]
  · exact dirDI_setDir_initDir l notDriven
  · simpa using notDriven
  · exact notDriven

theorem perform_dirsSet_of_safe {sets : Bool} {op : MicroOp} {ops : List MicroOp} {c : Latched} {b : Byte}
    {s : State} (h : restIsSafe sets s.lines (op :: ops) = true) (dirs : s.lines.dirsSet = true) :
    (perform op c b s).1.lines.dirsSet = true := by
  obtain ⟨l, e⟩ | ⟨l, v, e⟩ | e := perform_lines_of_safe (c := c) (b := b) h <;> rw [e]
  · exact dirsSet_setDir_initDir l dirs
  · simpa using dirs
  · exact dirs

/-- Under the invariant the event a step makes is the first of a safe rest. -/
theorem MakesEvent.safe_cons {s s' : State} {c k b op} (event : MakesEvent s s' c k b op) (inv : s.Inv) :
    restIsSafe (c.op = .init) s.lines (op :: (body c).drop (k + 1)) = true := by
  obtain ⟨-, -, safe, -⟩ := inv
  obtain ⟨-, -, rest⟩ := (phaseSafe_iff_of_busy event.phase).1 safe
  obtain ⟨inside, rfl⟩ := List.getElem?_eq_some_iff.1 event.at_position
  rwa [List.drop_eq_getElem_cons inside] at rest

theorem perform_wf {op : MicroOp} {c : Latched} {b : Byte} {s : State} (h : s.memory.wf = true) :
    (perform op c b s).1.memory.wf = true := by
  rw [perform_memory]
  cases op with
  | bufWrite i => exact wf_store _ _ _ h
  | _ => exact h

/-- An event of a running command keeps the invariant: what is left of the command stays safe, and at its end
that is 10 R29 (b) and (c). -/
theorem MakesEvent.inv {s s' : State} {c k b op} (event : MakesEvent s s' c k b op) (inv : s.Inv) : s'.Inv := by
  have first := event.safe_cons inv
  have rest : restIsSafe (c.op = .init) s'.lines ((body c).drop (k + 1)) = true :=
    event.lines ▸ restIsSafe_perform first
  obtain ⟨notDriven, dirs, safe, wf⟩ := inv
  obtain ⟨-, afterInit, -⟩ := (phaseSafe_iff_of_busy event.phase).1 safe
  have notDriven' : s'.lines.dirDI ≠ .output := event.lines ▸ perform_dirDI_of_safe first notDriven
  have dirs' (h : s.initDone = true) : s'.lines.dirsSet = true :=
    event.lines ▸ perform_dirsSet_of_safe first (dirs h)
  have wf' : s'.memory.wf = true := event.memory ▸ perform_wf wf
  obtain ⟨more, same, b', phase⟩ | ⟨last, done, phase⟩ := event.moves
  · exact ⟨notDriven', fun h => dirs' (same ▸ h),
      (phaseSafe_iff_of_busy phase).2 ⟨more, fun h => same.trans (afterInit h), rest⟩, wf'⟩
  · rw [last, List.drop_length] at rest
    obtain ⟨atRest, dirsAtEnd⟩ := restIsSafe_nil.1 rest
    refine ⟨notDriven', fun h => ?_, (phaseSafe_of_idle phase).trans atRest, wf'⟩
    obtain before | isInit : s.initDone = true ∨ decide (c.op = .init) = true := by simpa [done] using h
    · exact dirs' before
    · exact dirsAtEnd isInit

/-- A transfer that passes validation has a legal LEN and comes after an INIT (43 R86). -/
theorem validate_transfer {i : Instr} {s : State} (hi : isTransfer i = true) (h : validate i s = .none) :
    i.length ≤ Config.lenMax ∧ s.initDone = true := by
  unfold validate at h
  split at h
  · cases h
  · split at h
    · cases h
    · simp_all [Instr.wellFormed]

/-- Acceptance keeps the invariant: the whole body of each command is safe from where it may begin. -/
theorem accept_phaseSafe {i : Instr} {s : State} (dirs : s.initDone = true → s.lines.dirsSet = true)
    (atRest : s.lines.atRest = true) (hv : validate i s = .none) : (accept i s).phaseSafe = true := by
  rw [phaseSafe_iff_of_busy (accept_phase i s)]
  cases i with
  | init => exact ⟨by simp [body, latch], by simp [latch], restIsSafe_init s.lines⟩
  | linestate =>
    exact ⟨by simp [body, latch], by simp [latch], by simp [latch, body, linestateOps, restIsSafe, atRest]⟩
  | write addr len | read addr len =>
    obtain ⟨short, done⟩ := validate_transfer rfl hv
    exact ⟨by simp [body, latch, transactOps], fun _ => done,
      restIsSafe_transact len.toNat short _ s.lines (dirs done)⟩

theorem resetBlock_inv {s : State} (wf : s.memory.wf = true) : (resetBlock s).Inv :=
  ⟨by simp [Lines.reset], by simp, rfl, wf⟩

/-- Settles O32. An event takes one safe primitive off the running command, acceptance begins a command whose
whole body is safe, reset is Idle at rest, and every other effect leaves all but the memory. -/
theorem everyStepKeepsTheInvariant : Obligations.EveryStepKeepsTheInvariant := by
  intro s s' inv hs
  have ⟨notDriven, dirs, safe, wf⟩ := inv
  cases step_effect hs with
  | event h _ hb _ ha =>
    obtain ⟨c, k, b, op, event⟩ := makesEvent_of_advance hb ha
    exact event.inv inv
  | accepted h hd i w buf hb _ _ hv =>
    have atRest : s.lines.atRest = true := phaseSafe_of_idle (phase_eq_idle_of_not_busy hb) ▸ safe
    exact ⟨notDriven, dirs, accept_phaseSafe dirs atRest hv, wf⟩
  | wasReset rest hh => exact resetBlock_inv wf
  | filled h a v => exact inv_of_same_block inv rfl rfl rfl (wf_store _ _ _ wf)
  | quiet | peeked | hold | rejected | delayed => exact inv_of_same_block inv rfl rfl rfl wf

/-- Settles O31: undriven lines, latches 0, INIT_DONE = 0, Idle, and an empty memory. -/
theorem resetMeetsTheInvariant : Obligations.ResetMeetsTheInvariant :=
  ⟨by decide, by decide, by decide, by decide⟩

/-- A safe primitive drives outputs only (10 R29 (d)). -/
theorem dirOf_eq_output_of_safe_lvl {sets : Bool} {op : MicroOp} {ops : List MicroOp} {c : Latched} {b : Byte}
    {s : State} {l : OutLine} {v : Level} (h : restIsSafe sets s.lines (op :: ops) = true)
    (e : eventOf op c b s = .lvl l v) : s.lines.dirOf l = .output := by
  cases op with
  | drive l' v' =>
    obtain ⟨rfl, rfl⟩ : l' = l ∧ v' = v := by simpa [eventOf] using e
    simp_all [restIsSafe]
  | shiftOut i =>
    obtain ⟨rfl, -⟩ : .DO = l ∧ _ := by simpa [eventOf] using e
    simp_all [restIsSafe, Lines.dirOf]
  | _ => cases e

/-- Settles O33: the event of the step is the first of a safe rest. -/
theorem onlyOutputsAreDriven : Obligations.OnlyOutputsAreDriven := by
  intro s s' l v inv hs driven
  obtain ⟨c, k, b, op, event⟩ | noEvent | ⟨-, reset⟩ := step_event_cases hs
  · have e : eventOf op c b s = .lvl l v := by simpa [event.trace] using driven
    exact dirOf_eq_output_of_safe_lvl (event.safe_cons inv) e
  · simp [noEvent.trace] at driven
  · simp [reset] at driven

/-- A Busy block whose position lies inside the body makes one event. -/
theorem advance_trace {s : State} {c : Latched} {k : Nat} {b : Byte} (hp : s.phase = .busy c k b)
    (inside : k < (body c).length) : ∃ s' e, advance s = .next s' ∧ s'.trace = s.trace ++ [e] := by
  have here := List.getElem?_eq_getElem inside
  refine ⟨_, eventOf (body c)[k] c b s, advance_busy hp here, ?_⟩
  split <;> exact perform_trace _ c b s

/-- Settles O35: in each of these cases the step is `advance`, and the invariant keeps the position inside the
body. -/
theorem busyBlockMakesOneEventPerStep : Obligations.BusyBlockMakesOneEventPerStep := by
  rintro s ⟨-, -, safe, -⟩ busy who
  obtain ⟨c, k, b, phase⟩ := (busy_iff s).1 busy
  obtain ⟨inside, -, -⟩ := (phaseSafe_iff_of_busy phase).1 safe
  rw [step_of_busy busy who]
  split
  · exact advance_trace (s := { s with host := s.host.tail }) phase inside
  · exact advance_trace phase inside

/-! ### The host's accesses to the registers (10 R17 to R24) -/

theorem holdWrite_of_none {hw : HostWrite} {s : State} (h : s.held = none) :
    holdWrite hw s = .next { s with held := some hw } := by
  simp [holdWrite, h]

theorem writeCmd_of_busy {w : Word} {buf : Binding} {s : State} (hb : s.busy = true) :
    writeCmd w buf s = holdWrite (.cmd w buf) s := by
  simp [writeCmd, hb]

theorem writeDelay_of_busy {w : Word} {s : State} (hb : s.busy = true) :
    writeDelay w s = holdWrite (.delay w) s := by
  simp [writeDelay, hb]

theorem writeDelay_of_idle {w : Word} {s : State} (hb : s.busy = false) :
    writeDelay w s = .next { s with delay := delayOfWord w } := by
  simp [writeDelay, hb]

theorem issue_of_busy {i : Instr} {s : State} (hb : s.busy = true) :
    issue i s = holdWrite (.cmd (encode i) s.binding) s := by
  simp [issue, hb]

/-- Settles O10: each of the three is `holdWrite` on an empty queue. -/
theorem writesAreHeldWhileBusy : Obligations.WritesAreHeldWhileBusy := by
  intro s hb hn
  refine ⟨fun i => ?_, fun w buf rest hh => ?_, fun w buf rest hh => ?_⟩
  · rw [exec_eq_issue, issue_of_busy hb, holdWrite_of_none hn]
  · calc step s
        = writeCmd w buf { s with host := rest } := step_of_host_cons hh hn
      _ = holdWrite (.cmd w buf) { s with host := rest } := writeCmd_of_busy hb
      _ = .next { s with host := rest, held := some (.cmd w buf) } := holdWrite_of_none hn
  · calc step s
        = writeDelay w { s with host := rest } := step_of_host_cons hh hn
      _ = holdWrite (.delay w) { s with host := rest } := writeDelay_of_busy hb
      _ = .next { s with host := rest, held := some (.delay w) } := holdWrite_of_none hn

/-- STATUS as a number, field by field (10 R19). -/
theorem status_toNat (s : State) :
    s.status.toNat =
      s.busy.toNat + 2 * s.initDone.toNat + 4 * s.line.toNat + 16 * s.err.code.toNat := by
  unfold State.status
  generalize s.busy = busy, s.initDone = initDone, s.line = line, s.err = err
  cases err <;> revert busy initDone line <;> decide

/-- DELAY reads as its 16 bits with 0 above them (10 R24). -/
theorem delayWord_eq (s : State) : s.delayWord = BitVec.ofNat 32 s.delay.toNat := by
  simp [State.delayWord]

theorem readReg_of_regValue {n : Nat} {v : Word} {s : State} (h : regValue n s = some v) :
    readReg n 32 s = .next { s with answer := some v } := by
  simp [readReg, h]

/-- A read of a register by a host that is not stalled answers the register and changes nothing else (20 R34). -/
theorem step_of_readReg {n : Nat} {v : Word} {s : State} {rest : List HostAction} (hn : s.held = none)
    (hh : s.host = .readReg n 32 :: rest) (hv : regValue n { s with host := rest } = some v) :
    step s = .next { s with host := rest, answer := some v } :=
  (step_of_host_cons hh hn).trans (readReg_of_regValue hv)

/-- Settles O14: each is a read of a register that exists, and what STATUS and DELAY read as are known as
numbers. -/
theorem registerReadsReturnTheirFields : Obligations.RegisterReadsReturnTheirFields := by
  intro s rest hn
  refine ⟨fun hh => step_of_readReg hn hh rfl, fun hh => ⟨s.status, step_of_readReg hn hh rfl, ?_⟩,
    fun hh => ?_⟩
  · rw [status_toNat]
    cases s.err <;> rfl
  · rw [← delayWord_eq]
    exact step_of_readReg hn hh rfl

theorem delayOfWord_eq (w : Word) : delayOfWord w = BitVec.ofNat 16 w.toNat := by
  simp [delayOfWord, BitVec.extractLsb']

/-- Settles O15, by the arms of `writeReg`; the block being idle, the DELAY write is not held. -/
theorem statusIgnoresAndDelayStoresWrites : Obligations.StatusIgnoresAndDelayStoresWrites := by
  intro s w buf rest hn
  refine ⟨fun hh => step_of_host_cons hh hn, fun hb hh => ?_⟩
  calc step s
      = writeDelay w { s with host := rest } := step_of_host_cons hh hn
    _ = .next { s with host := rest, delay := delayOfWord w } := writeDelay_of_idle hb
    _ = .next { s with host := rest, delay := BitVec.ofNat 16 w.toNat } := by rw [delayOfWord_eq]

/-- There is no register above 2, and no access but a whole word (10 R17). -/
theorem readReg_refuses {n width : Nat} (s : State) (h : 2 < n ∨ width ≠ 32) :
    ∃ r, readReg n width s = .refused r := by
  by_cases hw : width = 32
  · obtain ⟨m, rfl⟩ : ∃ m, n = m + 3 := ⟨n - 3, by omega⟩
    exact ⟨.noSuchRegister (m + 3), by simp [readReg, hw, regValue]⟩
  · exact ⟨.notAWord width, by simp [readReg, hw]⟩

theorem writeReg_refuses {n width : Nat} (w : Word) (buf : Binding) (s : State) (h : 2 < n ∨ width ≠ 32) :
    ∃ r, writeReg n width w buf s = .refused r := by
  by_cases hw : width = 32
  · obtain ⟨m, rfl⟩ : ∃ m, n = m + 3 := ⟨n - 3, by omega⟩
    exact ⟨.noSuchRegister (m + 3), by simp [writeReg, hw]⟩
  · exact ⟨.notAWord width, by simp [writeReg, hw]⟩

theorem writeBuffer_of_owned {a : Nat} {v : Byte} {s : State} (h : s.owned a = true) :
    writeBuffer a v s = .refused (.bufferBusy a) := by
  simp [writeBuffer, h]

/-- The running command owns the bytes bound to it and those it reaches (20 R33; log 3). -/
theorem owned_of_busy {s : State} {c : Latched} {k : Nat} {b : Byte} {i : Nat} (hp : s.phase = .busy c k b)
    (hi : i < c.len.toNat ∨ i < c.buf.size) : s.owned (c.buf.base + i) = true := by
  simp only [State.owned, hp, Latched.owns, Bool.and_eq_true, decide_eq_true_eq]
  omega

/-- An action that the stall does not hold back happens, a write held or not (log 7). -/
theorem step_of_ignoresStall {s : State} {a : HostAction} {rest : List HostAction} (h : s.host = a :: rest)
    (ha : a.ignoresStall = true) : step s = hostStep a rest s := by
  simp [step, moveNext, h, ha]

/-- Settles O16: the host's own three accesses where it is not stalled, the driven line stalled or not. -/
theorem forbiddenAccessesAreRefused : Obligations.ForbiddenAccessesAreRefused := by
  intro s rest
  refine ⟨fun hn => ⟨fun n width h hh => ?_, fun n width w buf h hh => ?_, fun c k b i v hp hi hh => ?_⟩,
    fun l v hh => step_of_ignoresStall hh rfl⟩
  · rw [step_of_host_cons hh hn]
    exact readReg_refuses { s with host := rest } h
  · rw [step_of_host_cons hh hn]
    exact writeReg_refuses w buf { s with host := rest } h
  · rw [step_of_host_cons hh hn]
    exact writeBuffer_of_owned (s := { s with host := rest }) (owned_of_busy hp hi)

/-! ### Reset (10 R28) -/

theorem step_of_assertReset {s : State} {rest : List HostAction} (h : s.host = .assertReset :: rest) :
    step s = .next (resetBlock { s with host := rest }) :=
  step_of_ignoresStall h rfl

/-- Settles O48: the fields as `State.reset` lists them, and the one step of reset, which leaves the memory. -/
theorem resetStateHasTheListedValues : Obligations.ResetStateHasTheListedValues := by
  refine ⟨rfl, rfl, rfl, rfl, rfl, rfl, rfl, rfl, rfl, rfl, rfl, by decide, rfl, rfl, fun s s' rest hh hs => ?_⟩
  rw [step_of_assertReset hh] at hs
  cases hs
  rfl

end Sys2Proof.Machine
end

section
/-! PROOFS. The host's memory and the transfer buffers (20), over every step: the memory changes by a primitive
of the running command, by a host write, or not at all. Then what the host's own accesses to it do. -/

namespace Sys2Proof.Machine

/-! ### What a step does to the memory -/

/-- A step makes one event of the running command, or leaves the memory alone, or is a host write of a byte
that the running command does not own. -/
theorem step_memory_cases {s s' : State} (hs : step s = .next s') :
    (∃ c k b op, MakesEvent s s' c k b op) ∨ (s'.trace = s.trace ∧ s'.memory = s.memory) ∨
      (s'.trace = s.trace ∧ ∃ a v, s.host.head? = some (.writeBuffer a v) ∧ s.owned a = false ∧
        s'.memory = s.memory.store a v) := by
  cases step_effect hs with
  | event h _ hb _ ha => exact .inl (makesEvent_of_advance hb ha)
  | filled h a v free written => exact .inr (.inr ⟨rfl, a, v, written, free, rfl⟩)
  | quiet | peeked | hold | rejected | accepted | delayed | wasReset => exact .inr (.inl ⟨rfl, rfl⟩)

/-- Settles O45: the command's store and the host's keep the form, and nothing else touches the memory. -/
theorem everyStepKeepsTheBufferCanonical : Obligations.EveryStepKeepsTheBufferCanonical := by
  intro s s' wf hs
  obtain ⟨c, k, b, op, event⟩ | ⟨-, same⟩ | ⟨-, a, v, -, -, stored⟩ := step_memory_cases hs
  · rw [event.memory]
    exact perform_wf wf
  · rwa [same]
  · rw [stored]
    exact wf_store _ _ _ wf

/-- An event changes the memory only where it is a `BufWr`, and then stores its byte in the bound buffer
(20 R31). -/
theorem MakesEvent.memory_cases {s s' : State} {c k b op} (event : MakesEvent s s' c k b op) :
    s'.memory = s.memory ∨
      ∃ i v, s'.trace = s.trace ++ [.bufWr i v] ∧ s'.memory = s.memory.store (c.buf.base + i) v := by
  rw [event.memory, event.trace, perform_memory]
  cases op with
  | bufWrite i => exact .inr ⟨i, b, rfl, rfl⟩
  | _ => exact .inl rfl

/-- Only a Send's `MemRead` makes a `BufRd`, of the byte the buffer holds there, below LEN (20 R32). -/
theorem MakesEvent.of_bufRd {s s' : State} {c k b op} (event : MakesEvent s s' c k b op) {i : Nat} {v : Byte}
    (made : s'.trace = s.trace ++ [.bufRd i v]) :
    c.op = .xfer ∧ c.mode = .send ∧ i < c.len.toNat ∧ v = s.memory.byteAt (c.buf.base + i) := by
  have here := mem_body (mem_of_get event.at_position)
  have e : eventOf op c b s = .bufRd i v := by simpa [event.trace] using made
  cases op with
  | bufRead j =>
    obtain ⟨rfl, rfl⟩ : j = i ∧ s.memory.bound c.buf j = v := by simpa [eventOf] using e
    obtain ⟨xfer, send, below⟩ := here
    exact ⟨xfer, send, below, rfl⟩
  | _ => cases e

/-- Only a Receive's `MemWrite` makes a `BufWr`, below LEN (20 R32). -/
theorem MakesEvent.of_bufWr {s s' : State} {c k b op} (event : MakesEvent s s' c k b op) {i : Nat} {v : Byte}
    (made : s'.trace = s.trace ++ [.bufWr i v]) :
    c.op = .xfer ∧ c.mode = .receive ∧ i < c.len.toNat := by
  have here := mem_body (mem_of_get event.at_position)
  have e : eventOf op c b s = .bufWr i v := by simpa [event.trace] using made
  cases op with
  | bufWrite j =>
    obtain ⟨rfl, -⟩ : j = i ∧ b = v := by simpa [eventOf] using e
    exact here
  | _ => cases e

/-- A step that adds nothing to the trace adds no event. -/
theorem not_trace_append {s s' : State} (same : s'.trace = s.trace) {e : Event} :
    s'.trace ≠ s.trace ++ [e] := by
  simp [same]

/-- Settles O43: the running command's own event, told by its primitive, or the host's write of a byte that
the command does not own. -/
theorem bufferAccessesAreTheCommandsOwn : Obligations.BufferAccessesAreTheCommandsOwn := by
  intro s s' c k b phase hs
  obtain ⟨c', k', b', op, event⟩ | ⟨noEvent, same⟩ | ⟨noEvent, a, v, written, free, stored⟩ :=
    step_memory_cases hs
  · obtain ⟨rfl, -, -⟩ : c = c' ∧ k = k' ∧ b = b' := by simpa [phase] using event.phase
    refine ⟨?_, fun i v => event.of_bufRd, fun i v => event.of_bufWr⟩
    obtain same | stored := event.memory_cases
    · exact .inl same
    · exact .inr (.inl stored)
  · exact ⟨.inl same, fun i v made => absurd made (not_trace_append noEvent),
      fun i v made => absurd made (not_trace_append noEvent)⟩
  · have free : c.owns a = false := by simpa [State.owned, phase] using free
    exact ⟨.inr (.inr ⟨a, v, written, free, stored⟩),
      fun i v made => absurd made (not_trace_append noEvent),
      fun i v made => absurd made (not_trace_append noEvent)⟩

/-- Settles O44, from O43: a `BufWr` lies at an index below LEN, so inside a buffer of LEN bytes. -/
theorem transfersStayInsideTheirBuffer : Obligations.TransfersStayInsideTheirBuffer := by
  intro s s' c k b a phase fits outside hs notHost
  obtain ⟨changes, -, writes⟩ := bufferAccessesAreTheCommandsOwn s s' c k b phase hs
  obtain same | ⟨i, v, made, stored⟩ | ⟨a', v, written, -, stored⟩ := changes
  · rw [same]
  · obtain ⟨-, -, below⟩ := writes i v made
    rw [stored, byteAt_store_other _ _ _ _ (by omega)]
  · have other : a ≠ a' := by
      rintro rfl
      exact notHost v written
    rw [stored, byteAt_store_other _ _ _ _ other]

/-! ### The old bytes of a READ (93 I16) -/

theorem advance_prior {s s' : State} (h : advance s = .next s') : s'.prior = s.prior := by
  obtain ⟨-, rfl⟩ | ⟨c, k, b, op, -, -, ⟨-, rfl⟩ | ⟨-, rfl⟩⟩ := advance_cases h
  · rfl
  · exact perform_prior op c b s
  · exact perform_prior op c b s

/-- Settles O18: only an acceptance writes `prior`, and a Busy block accepts nothing. -/
theorem priorStaysWhileACommandRuns : Obligations.PriorStaysWhileACommandRuns := by
  intro s s' busy hs
  cases step_effect hs with
  | event h _ _ _ ha =>
    have kept := advance_prior ha
    exact kept
  | accepted h hd i w buf idle => simp [busy] at idle
  | quiet | peeked | hold | rejected | delayed | filled | wasReset => rfl

/-! ### The host's accesses to the memory (20 R33) -/

/-- The bytes the running command does not own lie below its buffer, or above it and the LEN bytes it
reaches. -/
theorem owned_eq_false_of_outside {s : State} {a : Nat}
    (outside : ∀ c k b, s.phase = .busy c k b →
      a < c.buf.base ∨ (c.buf.base + c.len.toNat ≤ a ∧ c.buf.base + c.buf.size ≤ a)) :
    s.owned a = false := by
  cases phase : s.phase with
  | idle => simp [State.owned, phase]
  | busy c k b =>
    have far := outside c k b phase
    simp only [State.owned, phase, Latched.owns, Bool.and_eq_false_iff, decide_eq_false_iff_not]
    omega

theorem receiving_iff {s : State} {a : Nat} :
    s.receiving a = true ↔ ∃ c k b, s.phase = .busy c k b ∧
      c.op = .xfer ∧ c.mode = .receive ∧ c.buf.base ≤ a ∧ a < c.buf.base + c.len.toNat := by
  cases phase : s.phase <;> simp [State.receiving, phase, Latched.receives, and_assoc]

/-- A host that is not stalled stores a byte that the running command does not own. -/
theorem step_of_writeBuffer {s : State} {a : Nat} {v : Byte} {rest : List HostAction} (hn : s.held = none)
    (hh : s.host = .writeBuffer a v :: rest) (free : s.owned a = false) :
    step s = .next { s with host := rest, memory := s.memory.store a v } := by
  have free' : ({ s with host := rest } : State).owned a = false := free
  rw [step_of_host_cons hh hn]
  simp [hostStep, writeBuffer, free']

/-- A byte in a 32-bit answer has 0 above it. -/
theorem byte_setWidth_eq (v : Byte) : v.setWidth 32 = BitVec.ofNat 32 v.toNat := by simp

/-- A host read of a byte that no READ is filling answers it as stored. -/
theorem step_of_readBuffer {s : State} {a : Nat} {rest : List HostAction} (hn : s.held = none)
    (hh : s.host = .readBuffer a :: rest) (settled : s.receiving a = false) :
    step s = .next { s with
      host := rest, answer := some (BitVec.ofNat 32 (s.memory.byteAt a).toNat) } := by
  have settled' : ({ s with host := rest } : State).receiving a = false := settled
  rw [step_of_host_cons hh hn, ← byte_setWidth_eq]
  simp [hostStep, readBuffer, settled']

/-- A host read of a byte that a READ is filling answers `seenByte`. -/
theorem step_of_readBuffer_receiving {s : State} {a : Nat} {rest : List HostAction} (hn : s.held = none)
    (hh : s.host = .readBuffer a :: rest) (filling : s.receiving a = true) :
    step s = .next { s with
      host := rest, answer := some (BitVec.ofNat 32 (seenByte a s).toNat), peeks := s.peeks + 1 } := by
  have filling' : ({ s with host := rest } : State).receiving a = true := filling
  rw [step_of_host_cons hh hn, ← byte_setWidth_eq]
  simp [hostStep, readBuffer, filling', seenByte]

/-- 93 I16: the old byte or the new. -/
theorem seenByte_cases (a : Nat) (s : State) :
    seenByte a s = s.prior.byteAt a ∨ seenByte a s = s.memory.byteAt a := by
  unfold seenByte
  split
  · exact .inl rfl
  · exact .inr rfl

/-- Settles O17: a write of a byte that no running command owns, and a read of a byte that no READ, or one,
is filling. -/
theorem hostReachesTheBuffer : Obligations.HostReachesTheBuffer := by
  intro s a v rest hn
  refine ⟨fun outside hh => ?_, fun notFilling hh => ?_, fun c k b phase xfer receive above below hh => ?_⟩
  · exact ⟨s.memory.store a v, step_of_writeBuffer hn hh (owned_eq_false_of_outside outside),
      byteAt_store_same _ _ _, fun j other => byteAt_store_other _ _ _ _ other⟩
  · refine step_of_readBuffer hn hh (Bool.eq_false_of_not_eq_true fun filling => ?_)
    obtain ⟨c, k, b, phase, fills⟩ := receiving_iff.1 filling
    exact notFilling c k b phase fills
  · exact ⟨seenByte a s, seenByte_cases a s, step_of_readBuffer_receiving hn hh
      (receiving_iff.2 ⟨c, k, b, phase, xfer, receive, above, below⟩)⟩

end Sys2Proof.Machine
end

section
/-! PROOFS. Whole transfers (20, 42): WRITE and READ from issue to end, what a READ leaves in its buffer, and
what reset leaves of one. -/

namespace Sys2Proof.Machine

/-! ### From issue to end -/

/-- The events the spec counts are the primitives of the body (42 R82, 70 R121). -/
theorem body_latch_length (i : Instr) (d : Micros) (buf : Binding) :
    (body (latch i d buf)).length = eventCount i := by
  cases i <;>
    simp only [body, latch, eventCount, transactOps, payloadOps, initOps_length, linestateOps_length,
      List.length_append, List.length_cons, List.length_nil, sendByteOps_length, sendPayloadOps_length,
      receivePayloadOps_length] <;> omega

theorem body_latch_ne_nil (i : Instr) (d : Micros) (buf : Binding) : body (latch i d buf) ≠ [] := by
  apply List.ne_nil_of_length_pos
  rw [body_latch_length]
  cases i <;> simp [eventCount]

/-- After an INIT a command with a legal LEN passes validation (43 R86). -/
theorem validate_of_initDone {i : Instr} {s : State} (done : s.initDone = true) (short : i.length ≤ 127) :
    validate i s = .none := by
  simp [validate, Instr.wellFormed, Config.lenMax, done, short]

/-- A command that an idle block accepts runs its whole body and completes (43 R85, R87). -/
theorem accepted_runs {i : Instr} {s : State} (idle : s.phase = .idle) (quiet : s.host = [])
    (valid : validate i s = .none) :
    exec i s = .next (accept i s) ∧
      Sys2Proof.core.run (eventCount i) (accept i s) = .next (complete (latch i s.delay s.binding)
        (performAll (body (latch i s.delay s.binding)) (latch i s.delay s.binding)
          (nibbleSwap (latch i s.delay s.binding).addr) (accept i s)).1) := by
  refine ⟨exec_accepts (by simp [State.busy, idle]) valid, ?_⟩
  rw [← body_latch_length i s.delay s.binding]
  exact run_body _ _ (accept i s) quiet rfl (body_latch_ne_nil i s.delay s.binding)

/-- TRANSACT in Send mode, the swapped address to shift first (42 R74, R77). -/
theorem performAll_transact_send (n : Nat) (c : Latched) (s : State) :
    (performAll (transactOps n .send) c (nibbleSwap c.addr) s).1 =
      { s with
        lines := { s.lines with outDO := false, outCL := false, outCE := false }
        trace := s.trace ++ writeTrace c.delay c.addr (s.memory.bound c.buf) n } := by
  simp only [transactOps, payloadOps, performAll_append, performAll_sendByte, performAll_sendPayload,
    performAll, perform, drive, waitFor, emit, Lines.setOut, writeTrace, transactTrace]
  cases n <;> simp

/-- TRANSACT in Receive mode (42 R74, R78): DO stays where the address's last bit, ADDR[3], left it. -/
theorem performAll_transact_receive (n : Nat) (c : Latched) (s : State) :
    (performAll (transactOps n .receive) c (nibbleSwap c.addr) s).1 =
      { takeLevels (8 * n) s with
        lines := { s.lines with outDO := c.addr.getLsbD 3, outCL := false, outCE := false }
        memory := storeReceived s.levelAt c.buf s.memory n
        trace := s.trace ++ readTrace c.delay c.addr s.levelAt n } := by
  simp only [transactOps, payloadOps, performAll_append, performAll_sendByte, nibbleSwap_last,
    performAll, perform, drive, waitFor, emit, Lines.setOut, performAll_receivePayload, readTrace,
    transactTrace]
  cases n <;> simp [takeLevels]

/-- Acceptance takes no sample. -/
@[simp] theorem accept_levelAt (i : Instr) (s : State) : (accept i s).levelAt = s.levelAt := rfl

/-- Settles O24: the accepted WRITE runs TRANSACT in Send mode. -/
theorem writeRunsToItsEnd : Obligations.WriteRunsToItsEnd := by
  intro addr len s idle quiet done short
  obtain ⟨accepted, runs⟩ :=
    accepted_runs (i := .write addr len) idle quiet (validate_of_initDone done short)
  refine ⟨_, accepted, runs.trans (congrArg _ ?_)⟩
  have sent := performAll_transact_send len.toNat (latch (.write addr len) s.delay s.binding)
    (accept (.write addr len) s)
  simp only [body, latch] at sent ⊢
  rw [sent]
  simp [complete, afterWrite, idle]

/-- Settles O25: the accepted READ runs TRANSACT in Receive mode. -/
theorem readRunsToItsEnd : Obligations.ReadRunsToItsEnd := by
  intro addr len s idle quiet done short
  obtain ⟨accepted, runs⟩ :=
    accepted_runs (i := .read addr len) idle quiet (validate_of_initDone done short)
  refine ⟨_, accepted, runs.trans (congrArg _ ?_)⟩
  have received := performAll_transact_receive len.toNat (latch (.read addr len) s.delay s.binding)
    (accept (.read addr len) s)
  simp only [body, latch] at received ⊢
  rw [received]
  simp [complete, afterRead, idle]

/-! ### The bytes a READ stores (20 R37, 41 R71) -/

theorem getLsbD_setBit (r : Byte) (v : Level) {i j : Nat} (hj : j < 8) :
    (setBit r i v).getLsbD j = if j = i then v else r.getLsbD j := by
  have bit : (1#8 <<< i).getLsbD j = decide (j = i) := by
    simp only [BitVec.getLsbD_shiftLeft, BitVec.getLsbD_one]
    grind
  cases v
  · simp only [setBit, Bool.false_eq_true, if_false, BitVec.getLsbD_and, BitVec.getLsbD_not, bit]
    by_cases at_i : j = i <;> simp [at_i, hj]
  · simp only [setBit, if_true, BitVec.getLsbD_or, bit]
    by_cases at_i : j = i <;> simp [at_i]

/-- The j-th sample of a byte is its bit 7 - j. -/
theorem getLsbD_receivedByte (f : Nat → Level) {j : Nat} (hj : j < 8) :
    (receivedByte f).getLsbD (7 - j) = f j := by
  rw [← receivedByte_eq]
  interval_cases j <;> simp [-BitVec.getLsbD_eq_getElem, getLsbD_setBit]

/-- Of n bytes stored from index 0, the i-th is the i-th received. -/
theorem byteAt_storeReceived_inside (f : Nat → Level) (buf : Binding) (m : Memory) {n i : Nat} (hi : i < n) :
    (storeReceived f buf m n).byteAt (buf.base + i) = receivedByte fun j => f (8 * i + j) := by
  induction n with
  | zero => omega
  | succ n ih =>
    by_cases last : i = n
    · rw [storeReceived, last, byteAt_store_same]
    · rw [storeReceived, byteAt_store_other _ _ _ _ (by omega), ih (by omega)]

theorem byteAt_storeReceived_outside (f : Nat → Level) (buf : Binding) (m : Memory) {n a : Nat}
    (outside : a < buf.base ∨ buf.base + n ≤ a) :
    (storeReceived f buf m n).byteAt a = m.byteAt a := by
  induction n with
  | zero => rfl
  | succ n ih => rw [storeReceived, byteAt_store_other _ _ _ _ (by omega), ih (by omega)]

/-- Settles O26, from O25: the memory at the end is the one with LEN bytes stored. -/
theorem readFillsTheBufferMsbFirst : Obligations.ReadFillsTheBufferMsbFirst := by
  intro addr len s idle quiet done short
  obtain ⟨t, accepted, runs⟩ := readRunsToItsEnd addr len s idle quiet done short
  refine ⟨t, _, accepted, runs, fun i j hi hj => ?_, fun a outside => ?_⟩
  · rw [afterRead, byteAt_storeReceived_inside _ _ _ hi, getLsbD_receivedByte _ hj]
  · exact byteAt_storeReceived_outside _ _ _ outside

/-! ### A READ cut short (70 R110) -/

/-- The index and the byte of a `BufWr` event. -/
def Event.write? : Event → Option (Nat × Byte)
  | .bufWr i v => some (i, v)
  | .dir _ _ | .lvl _ _ | .wait _ | .smp _ _ | .bufRd _ _ => none

/-- The memory once bytes are stored by their index in a buffer, one after another. -/
def Memory.storeAll (buf : Binding) (m : Memory) (ws : List (Nat × Byte)) : Memory :=
  ws.foldl (fun m w => m.store (buf.base + w.1) w.2) m

/-- The n bytes a READ receives, with their indices. -/
def receivedWrites (f : Nat → Level) (n : Nat) : List (Nat × Byte) :=
  (List.range n).map fun i => (i, receivedByte fun j => f (8 * i + j))

theorem storeAll_append (buf : Binding) (m : Memory) (ws vs : List (Nat × Byte)) :
    m.storeAll buf (ws ++ vs) = (m.storeAll buf ws).storeAll buf vs :=
  List.foldl_append

theorem storeAll_receivedWrites (f : Nat → Level) (buf : Binding) (m : Memory) (n : Nat) :
    m.storeAll buf (receivedWrites f n) = storeReceived f buf m n := by
  induction n with
  | zero => rfl
  | succ n ih =>
    rw [storeReceived, ← ih]
    simp [receivedWrites, Memory.storeAll, List.range_succ]

theorem receivedWrites_length (f : Nat → Level) (n : Nat) : (receivedWrites f n).length = n := by
  simp [receivedWrites]

/-- What begins the bytes received is the bytes received so far. -/
theorem eq_receivedWrites_of_prefix {f : Nat → Level} {n : Nat} {ws : List (Nat × Byte)}
    (h : ws <+: receivedWrites f n) : ws.length ≤ n ∧ ws = receivedWrites f ws.length := by
  have short : ws.length ≤ n := by simpa [receivedWrites_length] using h.length_le
  refine ⟨short, ?_⟩
  calc ws = (receivedWrites f n).take ws.length := List.prefix_iff_eq_take.1 h
    _ = receivedWrites f ws.length := by
      rw [receivedWrites, receivedWrites, ← List.map_take, List.take_range, min_eq_left short]

theorem countP_isBufWr (es : List Event) :
    es.countP Event.isBufWr = (es.filterMap Event.write?).length := by
  induction es with
  | nil => rfl
  | cons e es ih => cases e <;> simp [List.countP_cons, List.filterMap_cons, Event.isBufWr, Event.write?, ih]

theorem writes_receiveLoopTrace (d : Micros) (f : Nat → Level) (n : Nat) :
    (receiveLoopTrace d f n).filterMap Event.write? = receivedWrites f n := by
  induction n with
  | zero => rfl
  | succ n ih =>
    simp [receiveLoopTrace, receiveByteTrace, receivedWrites, List.range_succ, List.filterMap_cons,
      Event.write?, ih]

theorem writes_readTrace (d : Micros) (addr : Byte) (f : Nat → Level) (n : Nat) :
    (readTrace d addr f n).filterMap Event.write? = receivedWrites f n := by
  simp [readTrace, transactTrace, sendByteTrace, List.filterMap_cons, Event.write?,
    writes_receiveLoopTrace]

/-- A primitive changes the memory as its event says. -/
theorem perform_memory_eq_storeAll (op : MicroOp) (c : Latched) (b : Byte) (s : State) :
    (perform op c b s).1.memory =
      s.memory.storeAll c.buf ([eventOf op c b s].filterMap Event.write?) := by
  rw [perform_memory]
  cases op <;> rfl

/-- Primitives make one event each, and change the memory as the events together say (00 R10, 20 R31). -/
theorem performAll_events (ops : List MicroOp) (c : Latched) (b : Byte) (s : State) :
    ∃ es, es.length = ops.length ∧ (performAll ops c b s).1.trace = s.trace ++ es ∧
      (performAll ops c b s).1.memory = s.memory.storeAll c.buf (es.filterMap Event.write?) := by
  induction ops generalizing b s with
  | nil => exact ⟨[], rfl, (List.append_nil _).symm, rfl⟩
  | cons op ops ih =>
    obtain ⟨es, length, trace, memory⟩ := ih (perform op c b s).2 (perform op c b s).1
    refine ⟨eventOf op c b s :: es, by simp [length], ?_, ?_⟩
    · rw [performAll, trace, perform_trace]
      simp
    · rw [performAll, memory, perform_memory_eq_storeAll, ← storeAll_append, ← List.filterMap_append]
      rfl

/-- With no host action listed, j steps short of the end do the next j primitives (10 R26). -/
theorem run_take {c : Latched} {k : Nat} {b : Byte} {s : State} {j : Nat} (phase : s.phase = .busy c k b)
    (quiet : s.host = []) (inside : k + j < (body c).length) :
    Sys2Proof.core.run j s = .next
      { (performAll (((body c).drop k).take j) c b s).1 with
        phase := .busy c (k + j) (performAll (((body c).drop k).take j) c b s).2 } := by
  induction j generalizing k b s with
  | zero => simp [core_run_zero, performAll, ← phase]
  | succ j ih =>
    have here : k < (body c).length := by omega
    have busy : s.busy = true := (busy_iff s).2 ⟨c, k, b, phase⟩
    have moved : step s = .next
        { (perform (body c)[k] c b s).1 with phase := .busy c (k + 1) (perform (body c)[k] c b s).2 } := by
      rw [step_of_busy busy (.inl quiet), if_neg (by simp [quiet]),
        advance_busy phase (List.getElem?_eq_getElem here), if_pos (by omega)]
    rw [core_run_succ j moved, ih rfl (by simpa using quiet) (by omega), List.drop_eq_getElem_cons here,
      List.take_succ_cons, performAll, performAll_withPhase, Nat.add_right_comm k 1 j, Nat.add_assoc]

/-- A READ run for j of its events: what the trace shows of it, and the bytes it has stored (42 R78). -/
theorem read_runs_to_prefix {addr len : Byte} {s : State} {j : Nat} (quiet : s.host = [])
    (short : j < eventCount (.read addr len)) :
    ∃ u es, Sys2Proof.core.run j (accept (.read addr len) s) = .next u ∧ u.trace = s.trace ++ es ∧
      es.length = j ∧ es <+: readTrace s.delay addr s.levelAt len.toNat ∧
      u.memory = s.memory.storeAll s.binding (es.filterMap Event.write?) := by
  set c := latch (.read addr len) s.delay s.binding with hc
  set t := accept (.read addr len) s with ht
  have inside : j < (body c).length := by rwa [hc, body_latch_length]
  obtain ⟨es, length, trace, memory⟩ := performAll_events ((body c).take j) c (nibbleSwap c.addr) t
  obtain ⟨rest, -, whole, -⟩ := performAll_events ((body c).drop j) c
    (performAll ((body c).take j) c (nibbleSwap c.addr) t).2
    (performAll ((body c).take j) c (nibbleSwap c.addr) t).1
  rw [← performAll_append, List.take_append_drop, trace, List.append_assoc] at whole
  have received := congrArg State.trace (performAll_transact_receive len.toNat c t)
  have begins : es <+: readTrace s.delay addr s.levelAt len.toNat :=
    ⟨rest, List.append_cancel_left (whole.symm.trans received)⟩
  exact ⟨_, es, run_take (phase := rfl) quiet (by simpa using inside), trace, by simp [length, inside.le],
    begins, memory⟩

/-- Settles O50: the events so far begin those of the whole READ, so the bytes stored so far begin the bytes
received; reset then leaves the memory and the trace alone. -/
theorem resetCutsAReadAtAPrefix : Obligations.ResetCutsAReadAtAPrefix := by
  intro addr len s j idle quiet done legal short
  obtain ⟨accepted, -⟩ :=
    accepted_runs (i := .read addr len) idle quiet (validate_of_initDone done legal)
  obtain ⟨u, es, runs, trace, length, begins, memory⟩ := read_runs_to_prefix (s := s) quiet short
  have writesBegin := begins.filterMap Event.write?
  rw [writes_readTrace] at writesBegin
  obtain ⟨bounded, soFar⟩ := eq_receivedWrites_of_prefix writesBegin
  rw [← countP_isBufWr] at bounded soFar
  refine ⟨_, u, _, es, accepted, runs, trace, length, step_of_assertReset rfl, rfl, rfl, rfl, rfl, rfl, rfl,
    rfl, rfl, bounded, ?_⟩
  rw [← storeAll_receivedWrites, ← soFar]
  exact memory

end Sys2Proof.Machine
end

section
/-! PROOFS. The order of the bits on the wire (20 R36 to R38), read off a transaction's trace at the rising edges
of CL. -/

namespace Sys2Proof.Machine

/-! ### The lines along a trace -/

theorem replay_append (ln : Lines) (xs ys : List Event) :
    replay ln (xs ++ ys) = replay (replay ln xs) ys :=
  List.foldl_append

theorem linesAtRises_append (ln : Lines) (xs ys : List Event) :
    linesAtRises ln (xs ++ ys) = linesAtRises ln xs ++ linesAtRises (replay ln xs) ys := by
  induction xs generalizing ln with
  | nil => rfl
  | cons e xs ih =>
    simp only [List.cons_append, linesAtRises, ih]
    split <;> rfl

/-- Only a `Lvl(CL, 1)` can be a rising edge of CL (40 R68). -/
theorem linesAtRises_eq_nil {ln : Lines} {es : List Event} (h : .lvl .CL true ∉ es) :
    linesAtRises ln es = [] := by
  induction es generalizing ln with
  | nil => rfl
  | cons e es ih =>
    obtain ⟨other, rest⟩ : ¬.lvl .CL true = e ∧ .lvl .CL true ∉ es := by simpa using h
    simp [linesAtRises, risingEdge, Ne.symm other, ih rest]

/-! ### Bits clocked out (41 R70) -/

/-- The events of one bit of SEND_BYTE. -/
def sendBitTrace (d : Micros) (v : Level) : List Event :=
  [.lvl .DO v, .lvl .CL true, .wait d, .lvl .CL false, .wait d]

theorem sendByteTrace_eq (d : Micros) (v : Byte) :
    sendByteTrace d v = (bitsOut v).flatMap (sendBitTrace d) := rfl

/-- The lines at the rising edge that clocks a bit out. -/
def Lines.clocking (ln : Lines) (v : Level) : Lines := { ln with outDO := v, outCL := true }

/-- The lines once a bit has been clocked out. -/
def Lines.sent (ln : Lines) (v : Level) : Lines := { ln with outDO := v, outCL := false }

theorem clocking_sent (ln : Lines) (v : Level) : (ln.sent v).clocking = ln.clocking := rfl

theorem pin_DO_clocking {ln : Lines} (v : Level) (h : ln.dirDO = .output) :
    (ln.clocking v).pin .DO = some v := by
  simp [Lines.clocking, Lines.pin, Lines.dirOf, Lines.out, h]

theorem replay_sendBit (ln : Lines) (d : Micros) (v : Level) :
    replay ln (sendBitTrace d v) = ln.sent v := rfl

theorem replay_sendBits (ln : Lines) (d : Micros) (vs : List Level) :
    replay ln (vs.flatMap (sendBitTrace d)) = vs.foldl Lines.sent ln := by
  induction vs generalizing ln with
  | nil => rfl
  | cons v vs ih => rw [List.flatMap_cons, replay_append, replay_sendBit, ih, List.foldl_cons]

theorem linesAtRises_sendBit {ln : Lines} (d : Micros) (v : Level) (output : ln.dirCL = .output)
    (low : ln.outCL = false) : linesAtRises ln (sendBitTrace d v) = [ln.clocking v] := by
  simp [sendBitTrace, linesAtRises, risingEdge, Lines.after, Lines.setOut, Lines.pin, Lines.dirOf, Lines.out,
    Lines.clocking, output, low]

/-- Bits sent one after another stand on DO at one rising edge each, in their order. -/
theorem linesAtRises_sendBits {ln : Lines} (d : Micros) (vs : List Level) (output : ln.dirCL = .output)
    (low : ln.outCL = false) :
    linesAtRises ln (vs.flatMap (sendBitTrace d)) = vs.map ln.clocking := by
  induction vs generalizing ln with
  | nil => rfl
  | cons v vs ih =>
    rw [List.flatMap_cons, linesAtRises_append, linesAtRises_sendBit d v output low, replay_sendBit,
      ih (ln := ln.sent v) output rfl, clocking_sent, List.map_cons, List.singleton_append]

/-- A byte goes out least-significant bit first (20 R36). -/
theorem linesAtRises_sendByte {ln : Lines} (d : Micros) (v : Byte) (output : ln.dirCL = .output)
    (low : ln.outCL = false) : linesAtRises ln (sendByteTrace d v) = (bitsOut v).map ln.clocking := by
  rw [sendByteTrace_eq, linesAtRises_sendBits d _ output low]

theorem replay_sendByte (ln : Lines) (d : Micros) (v : Byte) :
    replay ln (sendByteTrace d v) = ln.sent (v.getLsbD 7) := by
  rw [sendByteTrace_eq, replay_sendBits]
  simp [bitsOut, Lines.sent]

/-- The Send loop clocks the payload out last byte first (20 R37, 42 R77). -/
theorem linesAtRises_sendLoop {ln : Lines} (d : Micros) (m : Nat → Byte) (n : Nat)
    (output : ln.dirCL = .output) (low : ln.outCL = false) :
    linesAtRises ln (sendLoopTrace d m n) = (payloadBitsOut m n).map ln.clocking := by
  induction n generalizing ln with
  | zero => rfl
  | succ n ih =>
    have noRise : linesAtRises ln (sendLoopTrace d m (n + 1)) =
      linesAtRises ln (sendByteTrace d (m n) ++ sendLoopTrace d m n) := by
      simp [sendLoopTrace, linesAtRises, risingEdge, Lines.after]
    rw [noRise, linesAtRises_append, linesAtRises_sendByte d _ output low, replay_sendByte,
      ih (ln := ln.sent _) output rfl, clocking_sent, payloadBitsOut, List.map_append]

/-! ### A transaction's rising edges (42 R74) -/

/-- The lines as a transaction's payload finds them: CL low, the CE window open, DO at the address's last
bit. -/
def Lines.windowOpen (ln : Lines) (addr : Byte) : Lines :=
  { ln with outDO := (nibbleSwap addr).getLsbD 7, outCL := false, outCE := true }

/-- The address byte makes the first eight rising edges, the payload the rest. -/
theorem linesAtRises_transact {ln : Lines} (d : Micros) (addr : Byte) (payload : List Event)
    (output : ln.dirCL = .output) (low : ln.outCL = false) :
    linesAtRises ln (transactTrace d addr payload) =
      (bitsOut (nibbleSwap addr)).map ln.clocking ++ linesAtRises (ln.windowOpen addr) payload := by
  have opening (ln' : Lines) : linesAtRises ln' [.lvl .CL false, .lvl .CE true, .wait d] = [] :=
    linesAtRises_eq_nil (by simp)
  have closing (ln' : Lines) : linesAtRises ln' [.lvl .CE false, .wait d] = [] :=
    linesAtRises_eq_nil (by simp)
  have opened : replay ln (sendByteTrace d (nibbleSwap addr) ++ [.lvl .CL false, .lvl .CE true, .wait d]) =
      ln.windowOpen addr := by
    rw [replay_append, replay_sendByte]
    rfl
  rw [transactTrace, linesAtRises_append, closing, List.append_nil, linesAtRises_append, opened,
    linesAtRises_append, opening, List.append_nil, linesAtRises_sendByte d _ output low]

/-- DO at the edges that clock bits out, while it is an output. -/
theorem map_pin_DO_clocking {ln : Lines} (vs : List Level) (output : ln.dirDO = .output) :
    (vs.map ln.clocking).map (fun x => x.pin .DO) = vs.map some := by
  simp [pin_DO_clocking _ output]

theorem doAtRises_transact {ln : Lines} (d : Micros) (addr : Byte) (payload : List Event)
    (outputDO : ln.dirDO = .output) (outputCL : ln.dirCL = .output) (low : ln.outCL = false) :
    doAtRises ln (transactTrace d addr payload) =
      (bitsOut (nibbleSwap addr)).map some ++ doAtRises (ln.windowOpen addr) payload := by
  rw [doAtRises, linesAtRises_transact d addr payload outputCL low, List.map_append,
    map_pin_DO_clocking _ outputDO, doAtRises]

/-- The nibbles swapped, each least-significant bit first (20 R38, 42 R75). -/
theorem bitsOut_nibbleSwap (a : Byte) :
    bitsOut (nibbleSwap a) =
      [a.getLsbD 4, a.getLsbD 5, a.getLsbD 6, a.getLsbD 7, a.getLsbD 0, a.getLsbD 1, a.getLsbD 2,
        a.getLsbD 3] := by
  revert a
  decide

/-- After an INIT an idle block drives DO, CL and CE, and CL and CE are low (10 R29 (b), (c)). -/
theorem lines_of_idle_inv {s : State} (inv : s.Inv) (idle : s.phase = .idle) (done : s.initDone = true) :
    s.lines.dirDO = .output ∧ s.lines.dirCL = .output ∧ s.lines.dirCE = .output ∧
      s.lines.outCL = false ∧ s.lines.outCE = false := by
  obtain ⟨-, dirs, safe, -⟩ := inv
  obtain ⟨outputDO, outputCL, -, outputCE⟩ :
      s.lines.dirDO = .output ∧ s.lines.dirCL = .output ∧ s.lines.dirDI = .inputPullup ∧
        s.lines.dirCE = .output := by
    simpa [Lines.dirsSet, and_assoc] using dirs done
  obtain ⟨lowCL, lowCE⟩ : s.lines.outCL = false ∧ s.lines.outCE = false := by
    simpa [phaseSafe_of_idle idle, Lines.atRest] using safe
  exact ⟨outputDO, outputCL, outputCE, lowCL, lowCE⟩

/-- WRITE and READ are TRANSACT around a payload (43 R90, R91). -/
theorem transfer_runs_transact {i : Instr} {addr len : Byte} {s : State}
    (kind : i = .write addr len ∨ i = .read addr len) (idle : s.phase = .idle) (quiet : s.host = [])
    (done : s.initDone = true) (short : len.toNat ≤ 127) :
    ∃ t u payload, exec i s = .next t ∧ Sys2Proof.core.run (eventCount i) t = .next u ∧
      u.trace = s.trace ++ transactTrace s.delay addr payload := by
  obtain rfl | rfl := kind
  · obtain ⟨t, accepted, runs⟩ := writeRunsToItsEnd addr len s idle quiet done short
    exact ⟨t, _, _, accepted, runs, rfl⟩
  · obtain ⟨t, accepted, runs⟩ := readRunsToItsEnd addr len s idle quiet done short
    exact ⟨t, _, _, accepted, runs, rfl⟩

/-- Settles O27: the first eight rising edges clock out the swapped address. -/
theorem addressBitsGoOutSwappedLsbFirst : Obligations.AddressBitsGoOutSwappedLsbFirst := by
  intro i addr len s kind inv idle quiet done short
  obtain ⟨t, u, payload, accepted, runs, trace⟩ :=
    transfer_runs_transact kind idle quiet done short
  obtain ⟨outputDO, outputCL, -, lowCL, -⟩ := lines_of_idle_inv inv idle done
  refine ⟨t, u, _, accepted, runs, trace, ?_⟩
  rw [doAtRises_transact s.delay addr payload outputDO outputCL lowCL, bitsOut_nibbleSwap]
  rfl

/-- The payload of a WRITE, at its rising edges: the Send loop's bits, as DO is driven low after them without
an edge of CL. -/
theorem doAtRises_sendLoop {ln : Lines} (d : Micros) (m : Nat → Byte) (n : Nat)
    (outputDO : ln.dirDO = .output) (outputCL : ln.dirCL = .output) (low : ln.outCL = false) :
    doAtRises ln (sendLoopTrace d m n ++ [.lvl .DO false]) = (payloadBitsOut m n).map some := by
  rw [doAtRises, linesAtRises_append, linesAtRises_sendLoop d m n outputCL low,
    linesAtRises_eq_nil (es := [.lvl .DO false]) (by simp), List.append_nil,
    map_pin_DO_clocking _ outputDO]

/-- Settles O28: the rising edges after the address's eight are those of the Send loop. -/
theorem writePayloadGoesOutLastByteFirst : Obligations.WritePayloadGoesOutLastByteFirst := by
  intro addr len s inv idle quiet done short
  obtain ⟨t, accepted, runs⟩ := writeRunsToItsEnd addr len s idle quiet done short
  obtain ⟨outputDO, outputCL, -, lowCL, -⟩ := lines_of_idle_inv inv idle done
  refine ⟨t, _, _, accepted, runs, rfl, ?_⟩
  rw [writeTrace, doAtRises_transact s.delay addr _ outputDO outputCL lowCL,
    List.drop_left' (by simp [bitsOut])]
  exact doAtRises_sendLoop s.delay _ _ outputDO outputCL rfl

end Sys2Proof.Machine
end

section
/-! PROOFS. The encoding (30 R52 to R62): a command word by its fields, the decoder against the encoder, the
reserved words, and what the statements of a program stand for. -/

namespace Sys2Proof

/-! ### A word by its fields (30 R52) -/

/-- Fields side by side, as a number: the upper one counts above the lower one's width. -/
theorem bitVec_append_toNat {m n : Nat} (x : BitVec m) (y : BitVec n) :
    (x ++ y).toNat = x.toNat * 2 ^ n + y.toNat := by
  rw [BitVec.toNat_append, ← Nat.shiftLeft_add_eq_or_of_lt y.isLt, Nat.shiftLeft_eq]

theorem bitVec_append_inj {m n : Nat} {x x' : BitVec m} {y y' : BitVec n} :
    x ++ y = x' ++ y' ↔ x = x' ∧ y = y' := by
  refine ⟨fun h => ?_, by rintro ⟨rfl, rfl⟩; rfl⟩
  have upper := congrArg (BitVec.extractLsb' n m) h
  have lower := congrArg (BitVec.extractLsb' 0 n) h
  simp only [BitVec.extractLsb'_append_eq_left, BitVec.extractLsb'_append_eq_right] at upper lower
  exact ⟨upper, lower⟩

/-- OP and MODE as the low byte of a word, the reserved bits above them 0. -/
theorem lowByte_setWidth (op : BitVec 2) (mode : BitVec 1) :
    (0#5 ++ mode ++ op).setWidth 32 = mode.setWidth 32 <<< 2 ||| op.setWidth 32 := by
  revert op mode
  decide

/-- What the mask of the transfers' rows looks at: OP, MODE and the reserved fields. -/
theorem and_transferMask_iff {op : BitVec 2} {mode : BitVec 1} {w : Word} :
    w &&& 0xFF0000FF#32 = mode.setWidth 32 <<< 2 ||| op.setWidth 32 ↔
      rsv0Field w = 0#5 ∧ modeField w = mode ∧ opField w = op ∧ rsv1Field w = 0#8 := by
  rw [← lowByte_setWidth, xfer_fields, low_fields, bitVec_append_inj, bitVec_append_inj, and_assoc, and_assoc]

/-- The fields of a packed word, the reserved ones among them (30 R56). -/
@[simp] theorem fields_packWord (op : BitVec 2) (mode : BitVec 1) (addr len : Byte) :
    (rsv0Field (packWord op mode addr len) = 0#5 ∧ modeField (packWord op mode addr len) = mode ∧
        opField (packWord op mode addr len) = op ∧ rsv1Field (packWord op mode addr len) = 0#8) ∧
      addrField (packWord op mode addr len) = addr ∧ lenField (packWord op mode addr len) = len :=
  ⟨and_transferMask_iff.1 (Laws.packWord_and_mask op mode addr len), addrField_packWord op mode addr len,
    lenField_packWord op mode addr len⟩

/-- A word is a packed word exactly when it has its four fields, and 0 in the reserved ones. -/
theorem packWord_eq_iff {op : BitVec 2} {mode : BitVec 1} {addr len : Byte} {w : Word} :
    packWord op mode addr len = w ↔
      (rsv0Field w = 0#5 ∧ modeField w = mode ∧ opField w = op ∧ rsv1Field w = 0#8) ∧
        addrField w = addr ∧ lenField w = len := by
  constructor
  · rintro rfl
    exact fields_packWord op mode addr len
  · rintro ⟨low, rfl, rfl⟩
    exact packWord_fields op mode w (and_transferMask_iff.2 low)

/-- A packed word as a number (30 R56, R61). -/
theorem packWord_toNat (op : BitVec 2) (mode : BitVec 1) (addr len : Byte) :
    (packWord op mode addr len).toNat =
      len.toNat * 65536 + addr.toNat * 256 + mode.toNat * 4 + op.toNat := by
  rw [word_fields (packWord op mode addr len)]
  simp only [fields_packWord, bitVec_append_toNat, BitVec.toNat_ofNat]
  omega

/-! ### Decoding against encoding (30 R56, R58) -/

/-- The mask of INIT's and LINESTATE's rows looks at every bit. -/
theorem matchesRow_wholeMask_iff {pattern w : Word} :
    matchesRow 0xFFFFFFFF#32 pattern w = true ↔ pattern = w := by
  rw [matchesRow, and_ff, beq_iff_eq, eq_comm]

/-- The mask of WRITE's and READ's rows leaves ADDR and LEN open. -/
theorem matchesRow_transferMask_iff {op : BitVec 2} {mode : BitVec 1} {w : Word} :
    matchesRow 0xFF0000FF#32 (mode.setWidth 32 <<< 2 ||| op.setWidth 32) w = true ↔
      packWord op mode (addrField w) (lenField w) = w := by
  rw [packWord_eq_iff, ← and_transferMask_iff]
  simp [matchesRow]

/-- Each row of the opcode map asks whether the word is that of the row's command with the word's own operands
(30 R56). -/
theorem decode_eq_rows (w : Word) :
    decode w =
      if encode .init = w then .ok .init
      else if encode (.write (addrField w) (lenField w)) = w then .ok (.write (addrField w) (lenField w))
      else if encode (.read (addrField w) (lenField w)) = w then .ok (.read (addrField w) (lenField w))
      else if encode .linestate = w then .ok .linestate
      else .error (reservedForm w) := by
  have initRow : matchesRow 0xFFFFFFFF#32 0x00000000#32 w = true ↔ encode .init = w :=
    matchesRow_wholeMask_iff
  have writeRow : matchesRow 0xFF0000FF#32 0x00000001#32 w = true ↔
      encode (.write (addrField w) (lenField w)) = w :=
    matchesRow_transferMask_iff (op := 0b01#2) (mode := 0#1)
  have readRow : matchesRow 0xFF0000FF#32 0x00000005#32 w = true ↔
      encode (.read (addrField w) (lenField w)) = w :=
    matchesRow_transferMask_iff (op := 0b01#2) (mode := 1#1)
  have linestateRow : matchesRow 0xFFFFFFFF#32 0x00000002#32 w = true ↔ encode .linestate = w :=
    matchesRow_wholeMask_iff
  simp only [decode, initRow, writeRow, readRow, linestateRow]

/-- A word decodes to no command but one it is the word of. -/
theorem encode_of_decode {w : Word} {i : Instr} (h : decode w = .ok i) : encode i = w := by
  rw [decode_eq_rows] at h
  split_ifs at h <;> cases h <;> assumption

/-- Every command's word decodes to it: it is the word of no command in an earlier row. -/
theorem decode_encode (i : Instr) : decode (encode i) = .ok i := by
  rw [decode_eq_rows]
  cases i with
  | init => rfl
  | write addr len => simp [encode, packWord_eq_iff]
  | read addr len => simp [encode, packWord_eq_iff]
  | linestate => simp [encode, packWord_eq_iff]

/-- Settles O2: a decoded word is the command's, and the command's word is decoded. -/
theorem decodeAndEncodeAgree : Obligations.DecodeAndEncodeAgree := by
  intro w i
  refine ⟨encode_of_decode, ?_⟩
  rintro rfl
  exact decode_encode i

/-- Settles O1: six are the words of the commands they decode to, and the seventh has OP = 3. -/
theorem wordsDecodeToTheirCommands : Obligations.WordsDecodeToTheirCommands :=
  ⟨decode_encode .init, decode_encode .linestate, decode_encode (.write 0x82#8 3#8),
    decode_encode (.read 0x83#8 2#8), decode_encode (.write 0#8 128#8), decode_encode (.read 0x10#8 200#8),
    by decide⟩

/-! ### The reserved words (30 R57) -/

/-- A word decodes to nothing exactly when it is no command's. -/
theorem decode_error_iff {w : Word} : (∃ r, decode w = .error r) ↔ ¬∃ i, encode i = w := by
  constructor
  · rintro ⟨r, reserved⟩ ⟨i, rfl⟩
    rw [decode_encode] at reserved
    cases reserved
  · intro noCommand
    cases decoded : decode w with
    | error r => exact ⟨r, rfl⟩
    | ok i => exact absurd ⟨i, encode_of_decode decoded⟩ noCommand

/-- A word is some command's exactly when its reserved fields are 0 and it is a transfer, in either mode with
any operands, or an INIT or LINESTATE without operands (30 R56). -/
theorem exists_encode_iff {w : Word} :
    (∃ i, encode i = w) ↔
      (rsv0Field w = 0#5 ∧ rsv1Field w = 0#8) ∧
        (opField w = 1#2 ∨ ((opField w = 0#2 ∨ opField w = 2#2) ∧
          modeField w = 0#1 ∧ addrField w = 0#8 ∧ lenField w = 0#8)) := by
  constructor
  · rintro ⟨i, rfl⟩
    cases i <;> simp [encode]
  · rintro ⟨⟨rsv0, rsv1⟩, op | ⟨op | op, mode, addr, len⟩⟩
    · obtain mode | mode : modeField w = 0#1 ∨ modeField w = 1#1 := by
        generalize modeField w = mode
        revert mode
        decide
      · exact ⟨.write (addrField w) (lenField w), packWord_eq_iff.2 ⟨⟨rsv0, mode, op, rsv1⟩, rfl, rfl⟩⟩
      · exact ⟨.read (addrField w) (lenField w), packWord_eq_iff.2 ⟨⟨rsv0, mode, op, rsv1⟩, rfl, rfl⟩⟩
    · exact ⟨.init, packWord_eq_iff.2 ⟨⟨rsv0, mode, op, rsv1⟩, addr, len⟩⟩
    · exact ⟨.linestate, packWord_eq_iff.2 ⟨⟨rsv0, mode, op, rsv1⟩, addr, len⟩⟩

theorem opField_cases (w : Word) : opField w = 0#2 ∨ opField w = 1#2 ∨ opField w = 2#2 ∨ opField w = 3#2 := by
  generalize opField w = op
  revert op
  decide

end Sys2Proof

namespace Sys2Proof.Machine

/-- A reserved word written to an idle block is rejected with E_ILLEGAL (30 R57). -/
theorem writeCmd_of_reserved {w : Word} {buf : Binding} {r : Reserved} {s : State} (hb : s.busy = false)
    (h : decode w = .error r) : writeCmd w buf s = .next (reject .illegal s) := by
  simp [writeCmd, hb, h]

/-- Settles O3: at each value of OP the listed words are those that are no command's, and a CMD write of one is
rejected. -/
theorem reservedWordsAreExactlyTheListedOnes : Obligations.ReservedWordsAreExactlyTheListedOnes := by
  refine fun w => ⟨?_, fun r buf rest s reserved hb hn hh => ?_⟩
  · rw [decode_error_iff, exists_encode_iff]
    obtain op | op | op | op := opField_cases w <;> simp [op] <;> tauto
  · calc step s
        = writeCmd w buf { s with host := rest } := step_of_host_cons hh hn
      _ = .next { s with host := rest, err := .illegal } := writeCmd_of_reserved hb reserved

/-! ### The statements of a program (30 R61, R62) -/

/-- The number a mnemonic writes to CMD: `(n << 16) | (addr << 8) | MODE << 2 | OP` (30 R61). -/
theorem packWord_eq_ofNat (op : BitVec 2) (mode : BitVec 1) {addr n : Nat} (haddr : addr < 256) (hn : n < 256) :
    packWord op mode (BitVec.ofNat 8 addr) (BitVec.ofNat 8 n) =
      BitVec.ofNat 32 (n * 65536 + addr * 256 + (mode.toNat * 4 + op.toNat)) := by
  have modeBound := mode.isLt
  have opBound := op.isLt
  apply BitVec.eq_of_toNat_eq
  simp only [packWord_toNat, BitVec.toNat_ofNat]
  omega

theorem encode_write_eq_ofNat {addr n : Nat} (haddr : addr < 256) (hn : n < 256) :
    encode (.write (BitVec.ofNat 8 addr) (BitVec.ofNat 8 n)) =
      BitVec.ofNat 32 (n * 65536 + addr * 256 + 1) :=
  packWord_eq_ofNat 0b01#2 0#1 haddr hn

theorem encode_read_eq_ofNat {addr n : Nat} (haddr : addr < 256) (hn : n < 256) :
    encode (.read (BitVec.ofNat 8 addr) (BitVec.ofNat 8 n)) =
      BitVec.ofNat 32 (n * 65536 + addr * 256 + 5) :=
  packWord_eq_ofNat 0b01#2 1#1 haddr hn

/-- FILL's i-th action writes its i-th byte, i after the first address (30 R62). -/
theorem getElem?_fillFrom (bytes : List Nat) (a i : Nat) :
    (fillFrom a bytes)[i]? = (bytes[i]?).map fun b => .writeBuffer (a + i) (BitVec.ofNat 8 b) := by
  induction bytes generalizing a i with
  | nil => rfl
  | cons b bytes ih =>
    cases i with
    | zero => rfl
    | succ i =>
      have shift : a + 1 + i = a + (i + 1) := by omega
      simp only [fillFrom, List.getElem?_cons_succ, ih, shift]

/-- Settles O4: a transfer's word is the call's number, FILL goes through its bytes in order, and the other
statements are their actions as written. -/
theorem statementWordsAreTheCallsWords : Obligations.StatementWordsAreTheCallsWords := by
  intro addr n m bytes buf
  refine ⟨fun haddr hn => ⟨?_, ?_⟩, fun haddr hlen => ?_, getElem?_fillFrom bytes buf.base,
    rfl, rfl, rfl, rfl, rfl, rfl⟩
  · rw [stmtActions, cmdWrite, encode_write_eq_ofNat haddr hn]
  · rw [stmtActions, cmdWrite, encode_read_eq_ofNat haddr hn]
  · rw [stmtActions, stmtActions, cmdWrite, encode_write_eq_ofNat haddr hlen]

/-! ### CHECK and WAITIDLE (30 R62) -/

theorem checkStatus_of_agrees {mask value : Word} {s : State} (h : s.status &&& mask = value) :
    checkStatus mask value s = .next { s with answer := some s.status } := by
  simp [checkStatus, h]

theorem checkStatus_of_differs {mask value : Word} {s : State} (h : s.status &&& mask ≠ value) :
    checkStatus mask value s = .fault (.checkFailed mask value s.status) := by
  simp [checkStatus, h]

theorem waitIdle_of_idle {rest : List HostAction} {s : State} (hb : s.busy = false) :
    waitIdle rest s = .next { s with host := rest, answer := some s.status } := by
  simp [waitIdle, hb]

theorem waitIdle_of_busy {rest : List HostAction} {s : State} (hb : s.busy = true) :
    waitIdle rest s = blockStep s := by
  simp [waitIdle, hb]

/-- Settles O19: a host that is not stalled makes its action, and each outcome is a branch of it. -/
theorem checkAndWaitidleReadStatus : Obligations.CheckAndWaitidleReadStatus := by
  refine fun s mask value rest hn => ⟨fun hh => ?_, fun hh => ?_⟩
  · rw [step_of_host_cons hh hn]
    exact ⟨checkStatus_of_agrees (s := { s with host := rest }),
      checkStatus_of_differs (s := { s with host := rest })⟩
  · rw [step_of_host_cons hh hn]
    exact ⟨waitIdle_of_idle, waitIdle_of_busy⟩

end Sys2Proof.Machine
end

section
/-! PROOFS. Line control (40): INIT from issue to end, and what its events do to the pins. -/

namespace Sys2Proof.Machine

/-! ### INIT from issue to end (43 R88) -/

/-- INIT passes validation whatever INIT_DONE is (43 R86). -/
theorem validate_init (s : State) : validate .init s = .none := rfl

/-- INIT's primitives leave the lines configured, whatever they were, and the shifted byte alone. -/
theorem performAll_initOps (c : Latched) (b : Byte) (s : State) :
    performAll initOps c b s =
      ({ s with lines := Lines.configured, trace := s.trace ++ initTrace c.delay }, b) := by
  simp [initOps, performAll, perform, setDir, drive, waitFor, emit, Lines.setDir, Lines.setOut,
    Lines.configured, initTrace]

/-- An INIT issued to an idle block runs its body to the end. -/
theorem init_runs {s : State} (idle : s.phase = .idle) (quiet : s.host = []) :
    exec .init s = .next (accept .init s) ∧
      Sys2Proof.core.run (eventCount .init) (accept .init s) = .next (afterInit s) := by
  obtain ⟨accepted, runs⟩ := accepted_runs idle quiet (validate_init s)
  refine ⟨accepted, runs.trans (congrArg _ ?_)⟩
  rw [body_of_init rfl, performAll_initOps]
  simp [complete, afterInit, accept, latch, idle]

/-! ### The pins during an INIT (40 R64) -/

/-- CE's pin during an INIT: as it was until CE becomes an output, at its latch until the pulse, then high and
low for one wait each. -/
theorem pinAfterEach_CE_initTrace (ln : Lines) (d : Micros) :
    pinAfterEach .CE ln (initTrace d) =
      [ln.pin .CE, ln.pin .CE, some ln.outCE, some ln.outCE, some ln.outCE, some ln.outCE, some true, some true,
        some false, some false] := rfl

/-- INIT never drives CL high (40 R68). -/
theorem clockPulses_initTrace (ln : Lines) (d : Micros) : clockPulses ln (initTrace d) = 0 := by
  have noDrive : .lvl .CL true ∉ initTrace d := by simp [initTrace]
  rw [clockPulses, linesAtRises_eq_nil noDrive, List.length_nil]

/-- Settles O22: the reset lines leave CE an input with its latch low, so its pin has no level at first and is
low once it has one. -/
theorem firstInitMakesOneCleanPulse : Obligations.FirstInitMakesOneCleanPulse := by
  intro s idle quiet fromReset
  obtain ⟨accepted, runs⟩ := init_runs idle quiet
  refine ⟨_, _, initTrace s.delay, accepted, runs, rfl, ?_, clockPulses_initTrace _ _⟩
  rw [pinAfterEach_CE_initTrace, fromReset]
  rfl

end Sys2Proof.Machine
end

section
/-! PROOFS. Transactions (42): the nibble swap, who samples DI, and what a transaction's trace makes at CE and
counts, put together from its segments. -/

namespace Sys2Proof.Machine

/-! ### The nibble swap (42 R75) -/

/-- A byte is its upper nibble above its lower one. -/
theorem nibbles_append (a : Byte) : a.extractLsb' 4 4 ++ a.extractLsb' 0 4 = a :=
  (BitVec.extractLsb'_append_extractLsb'_eq_extractLsb' rfl).trans BitVec.extractLsb'_eq_self

/-- Swapping two nibbles put together. -/
theorem nibbleSwap_append (hi lo : BitVec 4) : nibbleSwap (hi ++ lo) = lo ++ hi := by
  rw [nibbleSwap, BitVec.extractLsb'_append_eq_left, BitVec.extractLsb'_append_eq_right]

/-- The lower four bits of the swapped byte are the upper nibble, the upper four the lower one. -/
theorem getLsbD_nibbleSwap (a : Byte) (i : Nat) :
    (nibbleSwap a).getLsbD i =
      if i < 4 then (a.extractLsb' 4 4).getLsbD i else (a.extractLsb' 0 4).getLsbD (i - 4) :=
  BitVec.getLsbD_append

/-- Bit by bit: the right shift supplies the lower four bits and the left shift the upper four. -/
theorem nibbleSwap_eq_shifts (a : Byte) : nibbleSwap a = (a >>> 4 ||| a <<< 4) := by
  apply BitVec.eq_of_getLsbD_eq
  intro i inByte
  rw [getLsbD_nibbleSwap, BitVec.getLsbD_or, BitVec.getLsbD_ushiftRight, BitVec.getLsbD_shiftLeft]
  by_cases lower : i < 4
  · simp [lower]
  · have inNibble : i - 4 < 4 := by omega
    have past : a.getLsbD (4 + i) = false := BitVec.getLsbD_of_ge a _ (by omega)
    simp [lower, inByte, inNibble, past]

/-- Settles O5. As a byte is its two nibbles, swapping them twice gives it back, and once gives it back exactly
where they are equal. -/
theorem nibbleSwapIsItsOwnInverse : Obligations.NibbleSwapIsItsOwnInverse := by
  intro a
  refine ⟨nibbleSwap_eq_shifts a, ?_, ?_⟩
  · calc nibbleSwap (nibbleSwap a) = a.extractLsb' 4 4 ++ a.extractLsb' 0 4 := nibbleSwap_append _ _
      _ = a := nibbles_append a
  · calc nibbleSwap a = a
        ↔ a.extractLsb' 0 4 ++ a.extractLsb' 4 4 = a.extractLsb' 4 4 ++ a.extractLsb' 0 4 := by
          rw [nibbles_append, nibbleSwap]
      _ ↔ a.extractLsb' 4 4 = a.extractLsb' 0 4 := by
          rw [bitVec_append_inj, and_iff_right_of_imp Eq.symm, eq_comm]

/-! ### Who samples DI (42 R81, 43 R88) -/

/-- Does a primitive sample DI? -/
def MicroOp.samples : MicroOp → Bool
  | .shiftIn _ | .sampleLine => true
  | .setDir _ _ | .drive _ _ | .shiftOut _ | .wait | .bufRead _ | .bufWrite _ => false

theorem eventOf_isSmp (op : MicroOp) (c : Latched) (b : Byte) (s : State) :
    (eventOf op c b s).isSmp = op.samples := by
  cases op <;> rfl

/-- A primitive that does not sample takes no level. -/
theorem perform_levels_of_not_samples {op : MicroOp} (h : op.samples = false) (c : Latched) (b : Byte) (s : State) :
    (perform op c b s).1.diInput = s.diInput ∧ (perform op c b s).1.draws = s.draws := by
  cases op with
  | shiftIn | sampleLine => cases h
  | setDir | drive | shiftOut | wait | bufRead | bufWrite => exact ⟨rfl, rfl⟩

/-- Only READ and LINESTATE hold a primitive that samples. -/
theorem not_samples_of_mem_body {c : Latched} {op : MicroOp} (mem : op ∈ body c)
    (kind : c.op = .init ∨ (c.op = .xfer ∧ c.mode = .send)) : op.samples = false := by
  have holds := mem_body mem
  cases op with
  | shiftIn => simp_all
  | sampleLine => simp_all
  | setDir | drive | shiftOut | wait | bufRead | bufWrite => rfl

/-- The block's move in an INIT or a WRITE takes no level, and its one event is no `Smp`. -/
theorem advance_not_samples {s s' : State} (moved : advance s = .next s') {c : Latched} {k : Nat} {b : Byte}
    (phase : s.phase = .busy c k b) (kind : c.op = .init ∨ (c.op = .xfer ∧ c.mode = .send)) :
    s'.diInput = s.diInput ∧ s'.draws = s.draws ∧ ∃ e, s'.trace = s.trace ++ [e] ∧ e.isSmp = false := by
  obtain ⟨idle, -⟩ | ⟨c', k', b', op, phase', get, next⟩ := advance_cases moved
  · simp [phase] at idle
  obtain ⟨rfl, rfl, rfl⟩ : c = c' ∧ k = k' ∧ b = b' := by simpa [phase] using phase'
  have no := not_samples_of_mem_body (mem_of_get get) kind
  obtain ⟨levels, draws⟩ := perform_levels_of_not_samples no c b s
  have event := perform_trace op c b s
  obtain ⟨-, rfl⟩ | ⟨-, rfl⟩ := next <;>
    exact ⟨levels, draws, _, event, (eventOf_isSmp op c b s).trans no⟩

/-- Settles O42: an event is one of the command's own primitives, none of which samples, and every other effect
leaves the levels and the trace alone. -/
theorem sendAndInitNeverSample : Obligations.SendAndInitNeverSample := by
  intro s s' c k b phase kind hs
  cases step_effect hs with
  | event h _ _ _ moved =>
    obtain ⟨levels, draws, e, event, no⟩ := advance_not_samples moved phase kind
    refine ⟨levels, draws, fun e' event' => ?_⟩
    have same : [e] = [e'] := List.append_cancel_left (event.symm.trans event')
    rwa [List.singleton_inj.1 same] at no
  | quiet | peeked | hold | rejected | accepted | delayed | filled | wasReset =>
    exact ⟨rfl, rfl, fun e event => absurd event (not_trace_append rfl)⟩

/-! ### CE and the edges of CL along a trace (40 R68) -/

theorem pin_eq_some_iff {ln : Lines} {l : OutLine} {v : Level} :
    ln.pin l = some v ↔ ln.dirOf l = .output ∧ ln.out l = v := by
  simp [Lines.pin]

/-- A pin that has a level keeps having one, as long as its direction stays. -/
theorem pin_of_driven {ln ln' : Lines} {l : OutLine} {v w : Level} (h : ln.pin l = some v)
    (sameDir : ln'.dirOf l = ln.dirOf l) (out : ln'.out l = w) : ln'.pin l = some w := by
  obtain ⟨output, -⟩ := pin_eq_some_iff.1 h
  exact pin_eq_some_iff.2 ⟨sameDir.trans output, out⟩

theorem linesAtFalls_append (ln : Lines) (xs ys : List Event) :
    linesAtFalls ln (xs ++ ys) = linesAtFalls ln xs ++ linesAtFalls (replay ln xs) ys := by
  induction xs generalizing ln with
  | nil => rfl
  | cons e xs ih =>
    simp only [List.cons_append, linesAtFalls, ih]
    split <;> rfl

theorem pinAfterEach_append (l : OutLine) (ln : Lines) (xs ys : List Event) :
    pinAfterEach l ln (xs ++ ys) = pinAfterEach l ln xs ++ pinAfterEach l (replay ln xs) ys := by
  induction xs generalizing ln with
  | nil => rfl
  | cons e xs ih => simp only [List.cons_append, pinAfterEach, ih]; rfl

theorem clockPulses_eq_length (ln : Lines) (es : List Event) : clockPulses ln es = (ceAtRises ln es).length := by
  rw [ceAtRises, List.length_map, clockPulses]

theorem waitedMicros_append (xs ys : List Event) :
    waitedMicros (xs ++ ys) = waitedMicros xs + waitedMicros ys := by
  induction xs with
  | nil => simp [waitedMicros]
  | cons e xs ih => rw [List.cons_append, waitedMicros_cons, ih, ← add_assoc, ← waitedMicros_cons]

/-- What CE's pin is along a trace: at the edges of CL, the same at the rising as at the falling ones, and after
each event. -/
structure ReadsCE (ln : Lines) (es : List Event) (edges pins : List (Option Level)) : Prop where
  rises : ceAtRises ln es = edges
  falls : ceAtFalls ln es = edges
  after : pinAfterEach .CE ln es = pins

theorem ReadsCE.append {ln : Lines} {xs ys : List Event} {edges pins edges' pins' : List (Option Level)}
    (first : ReadsCE ln xs edges pins) (second : ReadsCE (replay ln xs) ys edges' pins') :
    ReadsCE ln (xs ++ ys) (edges ++ edges') (pins ++ pins') where
  rises := by rw [ceAtRises, linesAtRises_append, List.map_append, ← first.rises, ← second.rises]; rfl
  falls := by rw [ceAtFalls, linesAtFalls_append, List.map_append, ← first.falls, ← second.falls]; rfl
  after := by rw [pinAfterEach_append, first.after, second.after]

/-! ### Segments of a transaction that leave CE alone (41 R70, R71; 42 R77, R78) -/

/-- A segment that makes `n` bits, each a whole clock pulse with two waits in five events, `bufs` buffer events
and `others` beside them: from CL low it leaves CL low, and it leaves CE as it was throughout. -/
structure Clocks (d : Micros) (n bufs others : Nat) (es : List Event) : Prop where
  countWaits : es.countP Event.isWait = 2 * n
  micros : waitedMicros es = 2 * n * d.toNat
  countBufs : es.countP Event.isBuf = bufs
  length : es.length = 5 * n + bufs + others
  keepsCE : ∀ ln, (replay ln es).pin .CE = ln.pin .CE
  endsLow : ∀ ln, ln.pin .CL = some false → (replay ln es).pin .CL = some false
  reads : ∀ ln, ln.pin .CL = some false →
    ReadsCE ln es (List.replicate n (ln.pin .CE)) (List.replicate es.length (ln.pin .CE))

theorem clocks_nil (d : Micros) : Clocks d 0 0 0 [] where
  countWaits := rfl
  micros := by simp [waitedMicros]
  countBufs := rfl
  length := rfl
  keepsCE _ := rfl
  endsLow _ low := low
  reads _ _ := ⟨rfl, rfl, rfl⟩

theorem Clocks.append {d : Micros} {m n bufs bufs' others others' : Nat} {xs ys : List Event}
    (first : Clocks d m bufs others xs) (second : Clocks d n bufs' others' ys) :
    Clocks d (m + n) (bufs + bufs') (others + others') (xs ++ ys) where
  countWaits := by rw [List.countP_append, first.countWaits, second.countWaits, mul_add]
  micros := by rw [waitedMicros_append, first.micros, second.micros]; ring
  countBufs := by rw [List.countP_append, first.countBufs, second.countBufs]
  length := by rw [List.length_append, first.length, second.length]; ring
  keepsCE ln := by rw [replay_append, second.keepsCE, first.keepsCE]
  endsLow ln low := by
    rw [replay_append]
    exact second.endsLow _ (first.endsLow ln low)
  reads ln low := by
    have later := second.reads _ (first.endsLow ln low)
    rw [first.keepsCE] at later
    rw [List.length_append, List.replicate_add, List.replicate_add]
    exact (first.reads ln low).append later

/-- A segment with one whole pulse of CL, the lines the same at both of its edges. -/
theorem ReadsCE.of_pulse {ln up : Lines} {es : List Event} {pins : List (Option Level)}
    (rise : linesAtRises ln es = [up]) (fall : linesAtFalls ln es = [up]) (same : up.pin .CE = ln.pin .CE)
    (after : pinAfterEach .CE ln es = pins) : ReadsCE ln es [ln.pin .CE] pins where
  rises := by rw [ceAtRises, rise, List.map_singleton, same]
  falls := by rw [ceAtFalls, fall, List.map_singleton, same]
  after := after

theorem linesAtFalls_sendBit {ln : Lines} (d : Micros) (v : Level) (output : ln.dirCL = .output) :
    linesAtFalls ln (sendBitTrace d v) = [ln.clocking v] := by
  simp [sendBitTrace, linesAtFalls, fallingEdge, Lines.after, Lines.setOut, Lines.pin, Lines.dirOf, Lines.out,
    Lines.clocking, output]

theorem clocks_sendBit (d : Micros) (v : Level) : Clocks d 1 0 0 (sendBitTrace d v) where
  countWaits := rfl
  micros := by simp [sendBitTrace, waitedMicros, two_mul]
  countBufs := rfl
  length := rfl
  keepsCE _ := rfl
  endsLow _ low := pin_of_driven low rfl rfl
  reads ln low := by
    obtain ⟨output, atLow⟩ := pin_eq_some_iff.1 low
    exact .of_pulse (linesAtRises_sendBit d v output atLow) (linesAtFalls_sendBit d v output) rfl rfl

/-- The events of one bit of RECEIVE_BYTE. -/
def receiveBitTrace (d : Micros) (v : Level) : List Event :=
  [.lvl .CL true, .wait d, .smp .DI v, .lvl .CL false, .wait d]

theorem receiveByteTrace_eq (d : Micros) (f : Nat → Level) :
    receiveByteTrace d f = ([0, 1, 2, 3, 4, 5, 6, 7].map f).flatMap (receiveBitTrace d) := rfl

theorem linesAtRises_receiveBit {ln : Lines} (d : Micros) (v : Level) (output : ln.dirCL = .output)
    (low : ln.outCL = false) : linesAtRises ln (receiveBitTrace d v) = [ln.setOut .CL true] := by
  simp [receiveBitTrace, linesAtRises, risingEdge, Lines.after, Lines.setOut, Lines.pin, Lines.dirOf, Lines.out,
    output, low]

theorem linesAtFalls_receiveBit {ln : Lines} (d : Micros) (v : Level) (output : ln.dirCL = .output) :
    linesAtFalls ln (receiveBitTrace d v) = [ln.setOut .CL true] := by
  simp [receiveBitTrace, linesAtFalls, fallingEdge, Lines.after, Lines.setOut, Lines.pin, Lines.dirOf, Lines.out,
    output]

theorem clocks_receiveBit (d : Micros) (v : Level) : Clocks d 1 0 0 (receiveBitTrace d v) where
  countWaits := rfl
  micros := by simp [receiveBitTrace, waitedMicros, two_mul]
  countBufs := rfl
  length := rfl
  keepsCE _ := rfl
  endsLow _ low := pin_of_driven low rfl rfl
  reads ln low := by
    obtain ⟨output, atLow⟩ := pin_eq_some_iff.1 low
    exact .of_pulse (linesAtRises_receiveBit d v output atLow) (linesAtFalls_receiveBit d v output) rfl rfl

/-- Bits one after another make a clock pulse each. -/
theorem clocks_bits {d : Micros} {bitTrace : Level → List Event} (bit : ∀ v, Clocks d 1 0 0 (bitTrace v))
    (vs : List Level) : Clocks d vs.length 0 0 (vs.flatMap bitTrace) := by
  induction vs with
  | nil => exact clocks_nil d
  | cons v vs ih =>
    rw [List.length_cons, add_comm]
    exact (bit v).append ih

theorem clocks_sendByte (d : Micros) (v : Byte) : Clocks d 8 0 0 (sendByteTrace d v) := by
  rw [sendByteTrace_eq]
  exact clocks_bits (clocks_sendBit d) (bitsOut v)

theorem clocks_receiveByte (d : Micros) (f : Nat → Level) : Clocks d 8 0 0 (receiveByteTrace d f) := by
  rw [receiveByteTrace_eq]
  exact clocks_bits (clocks_receiveBit d) ([0, 1, 2, 3, 4, 5, 6, 7].map f)

/-- A buffer event touches no line (10 R14). -/
theorem clocks_isBuf {e : Event} (buffer : e.isBuf = true) (d : Micros) : Clocks d 0 1 0 [e] := by
  cases e with
  | bufRd | bufWr =>
    exact ⟨rfl, by simp [waitedMicros], rfl, rfl, fun _ => rfl, fun _ low => low, fun _ _ => ⟨rfl, rfl, rfl⟩⟩
  | dir | lvl | wait | smp => cases buffer

/-- Driving DO moves neither CL nor CE. -/
theorem clocks_driveDO (d : Micros) (v : Level) : Clocks d 0 0 1 [.lvl .DO v] where
  countWaits := rfl
  micros := by simp [waitedMicros]
  countBufs := rfl
  length := rfl
  keepsCE _ := rfl
  endsLow _ low := low
  reads _ _ := ⟨rfl, rfl, rfl⟩

theorem clocks_sendLoop (d : Micros) (m : Nat → Byte) (n : Nat) : Clocks d (8 * n) n 0 (sendLoopTrace d m n) := by
  induction n with
  | zero => exact clocks_nil d
  | succ n ih =>
    have read : Clocks d 0 1 0 [.bufRd n (m n)] := clocks_isBuf rfl d
    have loop : Clocks d (0 + (8 + 8 * n)) (1 + (0 + n)) 0 (sendLoopTrace d m (n + 1)) :=
      read.append ((clocks_sendByte d (m n)).append ih)
    rwa [show 0 + (8 + 8 * n) = 8 * (n + 1) by omega, show 1 + (0 + n) = n + 1 by omega] at loop

theorem clocks_receiveLoop (d : Micros) (f : Nat → Level) (n : Nat) :
    Clocks d (8 * n) n 0 (receiveLoopTrace d f n) := by
  induction n with
  | zero => exact clocks_nil d
  | succ n ih => exact (ih.append (clocks_receiveByte d _)).append (clocks_isBuf rfl d)

/-! ### The whole transaction (42 R74, R82, R83) -/

/-- Opening the window makes no edge of CL, as CL is low already, and raises CE with its second event. -/
theorem readsCE_opening {ln : Lines} (d : Micros) (lowCL : ln.pin .CL = some false)
    (lowCE : ln.pin .CE = some false) :
    ReadsCE ln [.lvl .CL false, .lvl .CE true, .wait d] [] [some false, some true, some true] where
  rises := by rw [ceAtRises, linesAtRises_eq_nil (by simp), List.map_nil]
  falls := by simp [ceAtFalls, linesAtFalls, fallingEdge, lowCL]
  after := by
    have untouched : (ln.setOut .CL false).pin .CE = some false := lowCE
    have raised : ((ln.setOut .CL false).setOut .CE true).pin .CE = some true := pin_of_driven lowCE rfl rfl
    simp [pinAfterEach, Lines.after, untouched, raised]

theorem pin_CL_opening {ln : Lines} (d : Micros) (lowCL : ln.pin .CL = some false) :
    (replay ln [.lvl .CL false, .lvl .CE true, .wait d]).pin .CL = some false :=
  pin_of_driven lowCL rfl rfl

theorem pin_CE_opening {ln : Lines} (d : Micros) (lowCE : ln.pin .CE = some false) :
    (replay ln [.lvl .CL false, .lvl .CE true, .wait d]).pin .CE = some true :=
  pin_of_driven lowCE rfl rfl

/-- Closing the window lowers CE with its first event, without an edge of CL. -/
theorem readsCE_closing {ln : Lines} (d : Micros) (highCE : ln.pin .CE = some true) :
    ReadsCE ln [.lvl .CE false, .wait d] [] [some false, some false] where
  rises := by rw [ceAtRises, linesAtRises_eq_nil (by simp), List.map_nil]
  falls := by simp [ceAtFalls, linesAtFalls, fallingEdge]
  after := by
    have lowered : (ln.setOut .CE false).pin .CE = some false := pin_of_driven highCE rfl rfl
    simp [pinAfterEach, Lines.after, lowered]

section transact
variable {d : Micros} {n bufs others : Nat} {payload : List Event} (addr : Byte)

/-- The address byte waits 16 times, opening and closing the window once each. -/
theorem Clocks.transact_countWaits (clocks : Clocks d n bufs others payload) :
    (transactTrace d addr payload).countP Event.isWait = 2 * n + 18 := by
  have address := clocks_sendByte d (nibbleSwap addr)
  simp only [transactTrace, List.countP_append, address.countWaits, clocks.countWaits]
  change 16 + 1 + 2 * n + 1 = 2 * n + 18
  omega

theorem Clocks.transact_micros (clocks : Clocks d n bufs others payload) :
    waitedMicros (transactTrace d addr payload) = (2 * n + 18) * d.toNat := by
  have address := clocks_sendByte d (nibbleSwap addr)
  simp only [transactTrace, waitedMicros_append, address.micros, clocks.micros, waitedMicros]
  ring

theorem Clocks.transact_countBufs (clocks : Clocks d n bufs others payload) :
    (transactTrace d addr payload).countP Event.isBuf = bufs := by
  have address := clocks_sendByte d (nibbleSwap addr)
  simp only [transactTrace, List.countP_append, address.countBufs, clocks.countBufs]
  change 0 + 0 + bufs + 0 = bufs
  omega

theorem Clocks.transact_length (clocks : Clocks d n bufs others payload) :
    (transactTrace d addr payload).length = 5 * n + 45 + bufs + others := by
  have address := clocks_sendByte d (nibbleSwap addr)
  simp only [transactTrace, List.length_append, address.length, clocks.length, List.length_cons, List.length_nil]
  omega

/-- The CE window opened after a segment with CE low, and closed after one with CE high (42 R79, R83): CE rises
and falls once, between the edges of CL. -/
theorem Clocks.readsCE_window {m bufs' others' : Nat} {address : List Event} {ln : Lines}
    (before : Clocks d m bufs' others' address) (within : Clocks d n bufs others payload)
    (lowCL : ln.pin .CL = some false) (lowCE : ln.pin .CE = some false) :
    ReadsCE ln (address ++ [.lvl .CL false, .lvl .CE true, .wait d] ++ payload ++ [.lvl .CE false, .wait d])
      (List.replicate m (some false) ++ List.replicate n (some true))
      (List.replicate (address.length + 1) (some false) ++ List.replicate (2 + payload.length) (some true)
        ++ List.replicate 2 (some false)) := by
  have sentCL := before.endsLow ln lowCL
  have sentCE := (before.keepsCE ln).trans lowCE
  have opened := (before.reads ln lowCL).append (readsCE_opening d sentCL sentCE)
  have openedCL := pin_CL_opening d sentCL
  have openedCE := pin_CE_opening d sentCE
  rw [← replay_append] at openedCL openedCE
  have paid := opened.append (within.reads _ openedCL)
  have paidCE := (within.keepsCE _).trans openedCE
  rw [← replay_append] at paidCE
  have whole := paid.append (readsCE_closing d paidCE)
  rw [lowCE, openedCE] at whole
  convert whole using 1
  · simp
  · simp [List.replicate_add]

/-- CE is low at the address byte's eight pulses and the window's first event, high up to the window's last, and
low from there on. -/
theorem Clocks.transact_readsCE {ln : Lines} (clocks : Clocks d n bufs others payload)
    (lowCL : ln.pin .CL = some false) (lowCE : ln.pin .CE = some false) :
    ReadsCE ln (transactTrace d addr payload)
      (List.replicate 8 (some false) ++ List.replicate n (some true))
      (List.replicate 41 (some false) ++ List.replicate (2 + payload.length) (some true)
        ++ List.replicate 2 (some false)) := by
  have address := clocks_sendByte d (nibbleSwap addr)
  have window := address.readsCE_window clocks lowCL lowCE
  rwa [address.length] at window

end transact

/-- WRITE and READ run TRANSACT around a payload of `LEN` bytes: a Send makes one event more, driving DO low
(42 R77), and both leave CE low (42 R80). -/
theorem transfer_runs_clocks {i : Instr} {addr len : Byte} {s : State}
    (kind : i = .write addr len ∨ i = .read addr len) (idle : s.phase = .idle) (quiet : s.host = [])
    (done : s.initDone = true) (short : len.toNat ≤ 127) :
    ∃ t u payload, exec i s = .next t ∧ Sys2Proof.core.run (eventCount i) t = .next u ∧
      u.trace = s.trace ++ transactTrace s.delay addr payload ∧ u.lines.outCE = false ∧
      Clocks s.delay (8 * len.toNat) len.toNat (if i = .write addr len then 1 else 0) payload := by
  obtain rfl | rfl := kind
  · obtain ⟨t, accepted, runs⟩ := writeRunsToItsEnd addr len s idle quiet done short
    refine ⟨t, _, _, accepted, runs, rfl, rfl, ?_⟩
    rw [if_pos rfl]
    exact (clocks_sendLoop s.delay _ len.toNat).append (clocks_driveDO s.delay false)
  · obtain ⟨t, accepted, runs⟩ := readRunsToItsEnd addr len s idle quiet done short
    refine ⟨t, _, _, accepted, runs, rfl, rfl, ?_⟩
    rw [if_neg nofun]
    exact clocks_receiveLoop s.delay s.levelAt len.toNat

/-- After an INIT an idle block's CL and CE pins are low (10 R29 (b), (c)). -/
theorem pins_low_of_idle_inv {s : State} (inv : s.Inv) (idle : s.phase = .idle) (done : s.initDone = true) :
    s.lines.pin .CL = some false ∧ s.lines.pin .CE = some false := by
  obtain ⟨-, outputCL, outputCE, lowCL, lowCE⟩ := lines_of_idle_inv inv idle done
  exact ⟨pin_eq_some_iff.2 ⟨outputCL, lowCL⟩, pin_eq_some_iff.2 ⟨outputCE, lowCE⟩⟩

/-- Settles O29: the address byte and the payload leave CE alone, so it is what the window's two events make
it. -/
theorem chipEnableIsHighExactlyForThePayload : Obligations.ChipEnableIsHighExactlyForThePayload := by
  intro i addr len s kind inv idle quiet done short
  obtain ⟨t, u, payload, accepted, runs, trace, closed, clocks⟩ :=
    transfer_runs_clocks kind idle quiet done short
  obtain ⟨lowCL, lowCE⟩ := pins_low_of_idle_inv inv idle done
  have reads := clocks.transact_readsCE addr lowCL lowCE
  refine ⟨t, u, _, accepted, runs, trace, closed, reads.rises, reads.falls, ?_⟩
  rw [reads.after, clocks.length]
  congr 3
  omega

/-- Settles O30: the counts of the payload, with those of the address byte and the window; the clock pulses are
the edges at which O29 reads CE. -/
theorem transactionsMakeTheCountedEvents : Obligations.TransactionsMakeTheCountedEvents := by
  intro i addr len s kind inv idle quiet done short
  obtain ⟨t, u, payload, accepted, runs, trace, -, clocks⟩ :=
    transfer_runs_clocks kind idle quiet done short
  obtain ⟨lowCL, lowCE⟩ := pins_low_of_idle_inv inv idle done
  refine ⟨t, u, _, accepted, runs, trace, ?_, ?_, ?_, clocks.transact_countBufs addr, ?_⟩
  · rw [clocks.transact_countWaits addr]
    omega
  · rw [clocks.transact_micros addr]
    ring
  · rw [clockPulses_eq_length, (clocks.transact_readsCE addr lowCL lowCE).rises]
    rw [List.length_append, List.length_replicate, List.length_replicate]
    omega
  · rw [clocks.transact_length addr]
    split <;> omega

end Sys2Proof.Machine
end

section
/-! PROOFS. Commands (43): validation and acceptance, the held write, INIT and LINESTATE from issue to end, and
the steps a running command takes where the host leaves it alone. -/

namespace Sys2Proof.Machine

/-! ### Validation (43 R86) -/

/-- A LEN above 127 is found before INIT_DONE is looked at. -/
theorem validate_of_long {i : Instr} {s : State} (transfer : isTransfer i = true) (long : 127 < i.length) :
    validate i s = .len := by
  simp [validate, Instr.wellFormed, Config.lenMax, transfer, Nat.not_le.2 long]

theorem validate_of_not_initDone {i : Instr} {s : State} (transfer : isTransfer i = true)
    (short : i.length ≤ 127) (notDone : s.initDone = false) : validate i s = .noInit := by
  simp [validate, Instr.wellFormed, Config.lenMax, transfer, short, notDone]

theorem validate_of_not_transfer {i : Instr} {s : State} (other : isTransfer i = false) : validate i s = .none := by
  simp [validate, other]

/-- What a command must meet to be accepted: a transfer both checks, any other nothing. -/
theorem validate_of_checks {i : Instr} {s : State}
    (checks : isTransfer i = true → i.length ≤ 127 ∧ s.initDone = true) : validate i s = .none := by
  cases transfer : isTransfer i with
  | false => exact validate_of_not_transfer transfer
  | true =>
    obtain ⟨short, done⟩ := checks transfer
    exact validate_of_initDone done short

/-- A command that fails validation is rejected by an idle block with the code found (60 R95). -/
theorem exec_rejects {i : Instr} {s : State} {e : ErrCode} (idle : s.busy = false) (invalid : validate i s = e)
    (fails : e ≠ .none) : exec i s = .next (reject e s) := by
  rw [exec_eq_issue]
  cases e with
  | none => exact absurd rfl fails
  | illegal | len | noInit => simp [issue, idle, invalid]

/-! ### A CMD write (43 R85, R86) -/

/-- A step of a host that is not stalled and writes CMD. -/
theorem step_of_writeCmd {s : State} {w : Word} {buf : Binding} {rest : List HostAction} (free : s.held = none)
    (writes : s.host = .writeReg 0 32 w buf :: rest) : step s = writeCmd w buf { s with host := rest } :=
  step_of_host_cons writes free

/-- Written to an idle block, a word that decodes is its command, on the buffer the write binds (20 R31). -/
theorem writeCmd_of_decode {w : Word} {i : Instr} {buf : Binding} {s : State} (idle : s.busy = false)
    (decoded : decode w = .ok i) : writeCmd w buf s = exec i { s with binding := buf } := by
  simp [writeCmd, idle, decoded]

/-- Written with the buffer that `binding` holds, it is its command while BUSY = 1 too: both are held. -/
theorem writeCmd_binding_of_decode {w : Word} {i : Instr} {s : State} (decoded : decode w = .ok i) :
    writeCmd w s.binding s = exec i s := by
  cases busy : s.busy with
  | false => exact writeCmd_of_decode busy decoded
  | true => rw [writeCmd_of_busy busy, exec_eq_issue, issue_of_busy busy, encode_of_decode decoded]

theorem nibbleSwap_zero : nibbleSwap 0#8 = 0#8 := by decide

/-- Settles O6: INIT and LINESTATE pass validation, and the byte to shift is the swap of an ADDR of 0. -/
theorem initAndLinestateAreAcceptedWhileIdle : Obligations.InitAndLinestateAreAcceptedWhileIdle := by
  intro s idle
  constructor
  · rw [exec_accepts idle (validate_of_not_transfer rfl)]
    simp [accept, latch, nibbleSwap_zero]
  · rw [exec_accepts idle (validate_of_not_transfer rfl)]
    simp [accept, latch, nibbleSwap_zero]

/-- Settles O7: after an INIT a transfer of a legal LEN passes validation. -/
theorem writeAndReadAreAcceptedAfterInit : Obligations.WriteAndReadAreAcceptedAfterInit :=
  fun _ _ _ idle done short =>
    ⟨exec_accepts idle (validate_of_initDone done short), exec_accepts idle (validate_of_initDone done short)⟩

/-- Settles O9: a reserved word never reaches validation, and each result of validation is its own outcome of
the command the word decodes to. -/
theorem commandWritesAreValidatedInOrder : Obligations.CommandWritesAreValidatedInOrder := by
  intro w buf rest s idle free writes
  have issued {i : Instr} (decoded : decode w = .ok i) :
      step s = exec i { s with host := rest, binding := buf } :=
    (step_of_writeCmd free writes).trans (writeCmd_of_decode idle decoded)
  refine ⟨fun r reserved => ?_, fun i decoded transfer long => ?_, fun i decoded transfer short notDone => ?_,
    fun i decoded checks => ?_⟩
  · exact (step_of_writeCmd free writes).trans (writeCmd_of_reserved idle reserved)
  · exact (issued decoded).trans (exec_rejects idle (validate_of_long transfer long) nofun)
  · exact (issued decoded).trans (exec_rejects idle (validate_of_not_initDone transfer short notDone) nofun)
  · exact (issued decoded).trans (exec_accepts idle (validate_of_checks checks))

/-- Settles O13: a CMD write is its command on the buffer it binds; `withFetchWord` writes the word whole, with
the buffer that `binding` holds. -/
theorem stepRunsTheDecodedCommand : Obligations.StepRunsTheDecodedCommand := by
  intro w i s decoded
  refine ⟨fun buf rest free writes => ⟨fun idle => ?_, fun busy => ?_⟩, ?_⟩
  · exact (step_of_writeCmd free writes).trans (writeCmd_of_decode idle decoded)
  · calc step s
        = writeCmd w buf { s with host := rest } := step_of_writeCmd free writes
      _ = holdWrite (.cmd w buf) { s with host := rest } := writeCmd_of_busy busy
      _ = .next { s with host := rest, held := some (.cmd w buf) } := holdWrite_of_none free
      _ = .next { s with host := rest, held := some (.cmd (encode i) buf) } := by rw [encode_of_decode decoded]
  · have whole : BitVec.ofNat 32 (w.toNat % 2 ^ 32) = w := by
      rw [Nat.mod_eq_of_lt w.isLt, BitVec.ofNat_toNat, BitVec.setWidth_eq]
    calc step (s.withFetchWord 32 w.toNat)
        = writeCmd (BitVec.ofNat 32 (w.toNat % 2 ^ 32)) s.binding { s with held := none } :=
          step_of_writeCmd rfl rfl
      _ = writeCmd w s.binding { s with held := none } := by rw [whole]
      _ = exec i { s with held := none } := writeCmd_binding_of_decode (s := { s with held := none }) decoded

/-! ### The held write (43 R85) -/

theorem blockStep_of_held {s : State} {hw : HostWrite} (idle : s.busy = false) (held : s.held = some hw) :
    blockStep s = performHeld hw { s with held := none } := by
  simp [blockStep, idle, held]

/-- The step in which an idle block lifts the held write: the host's next action waits behind it, or is a tick
and is used up (log 4, log 7). -/
theorem step_lifts_held {s : State} {hw : HostWrite} {rest : List HostAction} (idle : s.busy = false)
    (held : s.held = some hw)
    (who : s.host = rest ∧ (∀ a, s.host.head? = some a → a.ignoresStall = false) ∨ s.host = .tick :: rest) :
    step s = performHeld hw { s with held := none, host := rest } := by
  obtain ⟨rfl, waits⟩ | ticks := who
  · have moves : step s = blockStep s := by
      cases next : s.host with
      | nil => exact step_of_host_nil next
      | cons a _ => exact step_of_stalled next (by simp [held]) (waits a (by simp [next]))
    rw [moves, blockStep_of_held idle held]
  · calc step s
        = blockStep { s with host := rest } := step_of_ignoresStall ticks rfl
      _ = performHeld hw { s with held := none, host := rest } := blockStep_of_held idle held

/-- Settles O11: the lifted write is carried out as the same write by a host that is not stalled. -/
theorem heldWriteProceedsOnceIdle : Obligations.HeldWriteProceedsOnceIdle := by
  refine fun s rest idle who => ⟨fun w buf held => ?_, fun w held => ?_⟩
  · calc step s
        = writeCmd w buf { s with held := none, host := rest } := step_lifts_held idle held who
      _ = step { s with held := none, host := .writeReg 0 32 w buf :: rest } := Eq.symm (step_of_writeCmd rfl rfl)
  · calc step s
        = writeDelay w { s with held := none, host := rest } := step_lifts_held idle held who
      _ = .next { s with host := rest, held := none, delay := delayOfWord w } := writeDelay_of_idle idle

/-- The only actions of the outside world that a held write does not hold back (70 R109, 20 R50; log 4). -/
theorem ignoresStall_cases {a : HostAction} (h : a.ignoresStall = true) :
    a = .tick ∨ a = .assertReset ∨ ∃ l v, a = .driveLine l v := by
  cases a with
  | tick => exact .inl rfl
  | assertReset => exact .inr (.inl rfl)
  | driveLine l v => exact .inr (.inr ⟨l, v, rfl⟩)
  | _ => cases h

theorem ne_tick_of_stalled {a : HostAction} (h : a.ignoresStall = false) : a ≠ .tick := by
  rintro rfl
  cases h

/-- The block's own move leaves the host's side alone. -/
theorem advance_host_side {s s' : State} (moved : advance s = .next s') :
    s'.held = s.held ∧ s'.answer = s.answer ∧ s'.host = s.host := by
  obtain ⟨-, rfl⟩ | ⟨c, k, b, op, -, -, ⟨-, rfl⟩ | ⟨-, rfl⟩⟩ := advance_cases moved <;> simp

/-- While BUSY = 1 with a write held, a step that goes on and is no reset is the block's move, a tick used up. -/
theorem step_of_busy_held {s s' : State} (busy : s.busy = true) (held : s.held ≠ none) (hs : step s = .next s')
    (notReset : s.host.head? ≠ some .assertReset) :
    step s = advance (if s.host.head? = some .tick then { s with host := s.host.tail } else s) := by
  refine step_of_busy busy ?_
  cases host : s.host with
  | nil => exact .inl rfl
  | cons a rest =>
    cases stall : a.ignoresStall with
    | false => exact .inr (.inr (.inr ⟨held, a, rest, rfl, stall⟩))
    | true =>
      obtain rfl | rfl | ⟨l, v, rfl⟩ := ignoresStall_cases stall
      · exact .inr (.inl ⟨rest, rfl⟩)
      · exact absurd (by simp [host]) notReset
      · rw [step_of_ignoresStall host stall] at hs
        cases hs

/-- Settles O12: such a step is the block's move, which leaves the host's side alone, and only a tick is taken
off the list before it. -/
theorem heldWriteWaitsForTheCommandToEnd : Obligations.HeldWriteWaitsForTheCommandToEnd := by
  intro s s' hw busy held hs notReset
  have moved := (step_of_busy_held busy (by simp [held]) hs notReset).symm.trans hs
  obtain ⟨keepsHeld, keepsAnswer, keepsHost⟩ := advance_host_side moved
  refine ⟨?_, ?_, fun a rest host stalled => ?_⟩
  · rw [keepsHeld, ← held]
    split <;> rfl
  · rw [keepsAnswer]
    split <;> rfl
  · have noTick : s.host.head? ≠ some .tick := by simpa [host] using ne_tick_of_stalled stalled
    rw [keepsHost, if_neg noTick]

/-! ### INIT and LINESTATE from issue to end (43 R88, R89, R92) -/

/-- Settles O20: INIT makes ten events. -/
theorem initRunsToItsEnd : Obligations.InitRunsToItsEnd :=
  fun _ idle quiet => ⟨_, init_runs idle quiet⟩

/-- What an INIT leaves, a second one leaves too, but for its events (43 R89). -/
theorem afterInit_afterInit (s : State) :
    afterInit (afterInit s) =
      { afterInit s with trace := (afterInit s).trace ++ initTrace (afterInit s).delay } := rfl

/-- Settles O21: the first INIT leaves the block idle, so the second runs as the first did. -/
theorem initEndStateIsIdempotent : Obligations.InitEndStateIsIdempotent := by
  intro s idle quiet
  obtain ⟨accepted, runs⟩ := init_runs idle quiet
  obtain ⟨acceptedAgain, runsAgain⟩ := init_runs (s := afterInit s) idle quiet
  have ended : (afterInit s).busy = false := by simp [State.busy, afterInit, idle]
  exact ⟨_, _, _, _, accepted, runs, rfl, rfl, ended, rfl, rfl, rfl, acceptedAgain, runsAgain,
    afterInit_afterInit s⟩

/-- Settles O23: LINESTATE passes validation, and its body is one sample. -/
theorem linestateRunsToItsEnd : Obligations.LinestateRunsToItsEnd := by
  intro s idle quiet
  obtain ⟨accepted, runs⟩ := accepted_runs idle quiet (validate_of_not_transfer (i := .linestate) rfl)
  refine ⟨_, accepted, runs.trans (congrArg _ ?_)⟩
  rw [body_of_linestate rfl]
  simp only [performAll, perform, sample_eq, accept_levelAt]
  simp [complete, accept, latch, afterLinestate, takeLevels, emit, idle]

/-! ### A running command left alone (70 R122) -/

/-- After its ticks the host does nothing, waits in WAITIDLE, or is stalled on a held write: the cases in which
it leaves the running command alone (log 4, log 7, log 16). -/
def LeavesAlone (held : Option HostWrite) (h : List HostAction) : Prop :=
  h = [] ∨ (held = none ∧ h.head? = some .waitIdle) ∨
    (held ≠ none ∧ ∃ a, h.head? = some a ∧ a.ignoresStall = false)

/-- No tick is left among the actions of such a host. -/
theorem LeavesAlone.head?_ne_tick {held : Option HostWrite} {h : List HostAction} (alone : LeavesAlone held h) :
    h.head? ≠ some .tick := by
  obtain rfl | ⟨-, waits⟩ | ⟨-, a, next, stalled⟩ := alone
  · nofun
  · simp [waits]
  · simpa [next] using ne_tick_of_stalled stalled

/-- With such a host a Busy block makes its next event in every step, and a tick is used up if one is left. -/
theorem LeavesAlone.step_eq {s : State} {ticks : Nat} {h : List HostAction} (alone : LeavesAlone s.held h)
    (busy : s.busy = true) (host : s.host = List.replicate ticks .tick ++ h) :
    step s = advance { s with host := List.replicate (ticks - 1) .tick ++ h } := by
  cases ticks with
  | succ n => rw [step_of_busy busy (.inr (.inl ⟨_, host⟩)), if_pos (by rw [host]; rfl), host]; rfl
  | zero =>
    have host : s.host = h := host
    have who : s.host = [] ∨ (∃ rest, s.host = .tick :: rest) ∨
        (s.held = none ∧ ∃ rest, s.host = .waitIdle :: rest) ∨
        (s.held ≠ none ∧ ∃ a rest, s.host = a :: rest ∧ a.ignoresStall = false) := by
      rw [host]
      obtain nothing | ⟨free, waits⟩ | ⟨held, a, next, stalled⟩ := alone
      · exact .inl nothing
      · exact .inr (.inr (.inl ⟨free, List.head?_eq_some_iff.1 waits⟩))
      · obtain ⟨rest, next⟩ := List.head?_eq_some_iff.1 next
        exact .inr (.inr (.inr ⟨held, a, rest, next, stalled⟩))
    rw [step_of_busy busy who, if_neg (host ▸ alone.head?_ne_tick)]
    simp [← host]

/-- Command c stands at position k of its body, the end being Idle, with a write held or not and with ticks to
come before `h`. -/
structure StandsAt (s : State) (c : Latched) (held : Option HostWrite) (h : List HostAction) (k ticks : Nat) :
    Prop where
  phase : (k < (body c).length ∧ ∃ b, s.phase = .busy c k b) ∨ (k = (body c).length ∧ s.phase = .idle)
  held : s.held = held
  host : s.host = List.replicate ticks .tick ++ h

theorem StandsAt.busy {s : State} {c : Latched} {held h k ticks} (stands : StandsAt s c held h k ticks)
    (inside : k < (body c).length) : ∃ b, s.phase = .busy c k b := by
  obtain ⟨-, busy⟩ | ⟨ended, -⟩ := stands.phase
  · exact busy
  · omega

theorem StandsAt.idle {s : State} {c : Latched} {held h k ticks} (stands : StandsAt s c held h k ticks)
    (ended : k = (body c).length) : s.phase = .idle := by
  obtain ⟨inside, -⟩ | ⟨-, idle⟩ := stands.phase
  · omega
  · exact idle

/-- One step takes a command left alone one position on (10 R26, 43 R87). -/
theorem StandsAt.step_next {s : State} {c : Latched} {held h k ticks} (stands : StandsAt s c held h k ticks)
    (alone : LeavesAlone held h) (inside : k < (body c).length) :
    ∃ s', step s = .next s' ∧ StandsAt s' c held h (k + 1) (ticks - 1) := by
  obtain ⟨b, phase⟩ := stands.busy inside
  have busy : s.busy = true := (busy_iff s).2 ⟨c, k, b, phase⟩
  have moved := (LeavesAlone.step_eq (stands.held ▸ alone) busy stands.host).trans
    (advance_busy phase (List.getElem?_eq_getElem inside))
  refine ⟨_, moved, ?_⟩
  split
  next more => exact ⟨.inl ⟨more, _, rfl⟩, by simp [stands.held], by simp⟩
  next last => exact ⟨.inr ⟨by omega, rfl⟩, by simp [stands.held], by simp⟩

/-- j steps take it j positions on, the end of its body at most. -/
theorem StandsAt.run {s : State} {c : Latched} {held h k ticks} (stands : StandsAt s c held h k ticks)
    (alone : LeavesAlone held h) {j : Nat} (within : k + j ≤ (body c).length) :
    ∃ u, Sys2Proof.core.run j s = .next u ∧ StandsAt u c held h (k + j) (ticks - j) := by
  induction j generalizing s k ticks with
  | zero => exact ⟨s, core_run_zero s, stands⟩
  | succ j ih =>
    obtain ⟨s', stepped, stands'⟩ := stands.step_next alone (by omega)
    obtain ⟨u, runs, standsAt⟩ := ih stands' (by omega)
    rw [Nat.sub_sub, Nat.add_assoc, Nat.add_comm 1 j] at standsAt
    exact ⟨u, (core_run_succ j stepped).trans runs, standsAt⟩

/-- Settles O36: the invariant puts the position inside the body, and every step takes it one on until the end. -/
theorem everyAcceptedCommandEnds : Obligations.EveryAcceptedCommandEnds := by
  rintro s c k b ticks h ⟨-, -, safe, -⟩ phase host alone
  obtain ⟨inside, -, -⟩ := (phaseSafe_iff_of_busy phase).1 safe
  have stands : StandsAt s c s.held h k ticks := ⟨.inl ⟨inside, b, phase⟩, rfl, host⟩
  refine ⟨?_, fun j before => ?_, ?_⟩
  · obtain ⟨u, runs, ended⟩ := stands.run alone (j := (body c).length - k) (by omega)
    exact ⟨u, runs, ended.idle (by omega), ended.held, ended.host⟩
  · obtain ⟨u, runs, standsAt⟩ := stands.run alone (j := j) (by omega)
    obtain ⟨b', phase'⟩ := standsAt.busy (by omega)
    exact ⟨u, runs, (busy_iff u).2 ⟨c, k + j, b', phase'⟩⟩
  · rintro i d buf rfl
    exact body_latch_length i d buf

end Sys2Proof.Machine
end

section
/-! PROOFS. Exceptions (60): the codes a transfer is rejected with, and every way in which a step can end: it goes
on, or a CHECK failed, or the position is past the end of the body, or the host broke a duty. -/

namespace Sys2Proof.Machine

/-! ### Rejection (60 R95, R96) -/

/-- Settles O8: validation finds the LEN first, then the missing INIT, and `reject` writes ERR alone. -/
theorem transfersAreRejectedByLengthThenByInit : Obligations.TransfersAreRejectedByLengthThenByInit :=
  fun _ _ _ idle =>
    ⟨fun long => ⟨exec_rejects idle (validate_of_long rfl long) nofun,
        exec_rejects idle (validate_of_long rfl long) nofun⟩,
      fun short notDone => ⟨exec_rejects idle (validate_of_not_initDone rfl short notDone) nofun,
        exec_rejects idle (validate_of_not_initDone rfl short notDone) nofun⟩⟩

/-! ### Operations that go on -/

/-- An idle block answers every command: it accepts it or rejects it (60 R98). -/
theorem exec_goes_on (i : Instr) {s : State} (idle : s.busy = false) : ∃ s', exec i s = .next s' := by
  by_cases valid : validate i s = .none
  · exact ⟨_, exec_accepts idle valid⟩
  · exact ⟨_, exec_rejects idle rfl valid⟩

/-- A CMD write goes on, with any word, where the queue has room for it if it must be held. -/
theorem writeCmd_goes_on (w : Word) (buf : Binding) {s : State} (room : s.busy = true → s.held = none) :
    ∃ s', writeCmd w buf s = .next s' := by
  cases busy : s.busy with
  | true => exact ⟨_, (writeCmd_of_busy busy).trans (holdWrite_of_none (room busy))⟩
  | false =>
    cases decoded : decode w with
    | error r => exact ⟨_, writeCmd_of_reserved busy decoded⟩
    | ok i =>
      rw [writeCmd_of_decode busy decoded]
      exact exec_goes_on i busy

theorem writeDelay_goes_on (w : Word) {s : State} (room : s.busy = true → s.held = none) :
    ∃ s', writeDelay w s = .next s' := by
  cases busy : s.busy with
  | true => exact ⟨_, (writeDelay_of_busy busy).trans (holdWrite_of_none (room busy))⟩
  | false => exact ⟨_, writeDelay_of_idle busy⟩

theorem performHeld_goes_on (hw : HostWrite) {s : State} (idle : s.busy = false) :
    ∃ s', performHeld hw s = .next s' := by
  have room (busy : s.busy = true) : s.held = none := by simp [idle] at busy
  cases hw with
  | cmd w buf => exact writeCmd_goes_on w buf room
  | delay w => exact writeDelay_goes_on w room

theorem blockStep_goes_on_of_idle {s : State} (idle : s.busy = false) : ∃ s', blockStep s = .next s' := by
  cases held : s.held with
  | none => exact ⟨s, by simp [blockStep, idle, held]⟩
  | some hw =>
    rw [blockStep_of_held idle held]
    exact performHeld_goes_on hw idle

/-- The three registers can be read and written as whole words (10 R17). -/
theorem readReg_goes_on {n : Nat} (s : State) (exists_n : n < 3) : ∃ s', readReg n 32 s = .next s' :=
  match n, exists_n with
  | 0, _ | 1, _ | 2, _ => ⟨_, readReg_of_regValue rfl⟩

theorem writeReg_goes_on {n : Nat} (w : Word) (buf : Binding) {s : State} (exists_n : n < 3)
    (free : s.held = none) : ∃ s', writeReg n 32 w buf s = .next s' :=
  match n, exists_n with
  | 0, _ => writeCmd_goes_on w buf fun _ => free
  | 1, _ => ⟨s, rfl⟩
  | 2, _ => writeDelay_goes_on w fun _ => free

theorem readBuffer_goes_on (a : Nat) (s : State) : ∃ s', readBuffer a s = .next s' := by
  unfold readBuffer
  split
  · exact ⟨_, rfl⟩
  · exact ⟨_, rfl⟩

theorem writeBuffer_goes_on {a : Nat} (v : Byte) {s : State} (free : s.owned a = false) :
    ∃ s', writeBuffer a v s = .next s' :=
  ⟨{ s with memory := s.memory.store a v }, by simp [writeBuffer, free]⟩

/-! ### Every way in which a step can end (60 R98, R101, R108) -/

/-- How a step from `s` can end; `StepEffect` says what the first of these does to the state. -/
inductive StepOutcome (s : State) : Host.Outcome State Fault Refusal → Prop where
  | goesOn {o} (next : ∃ s', o = .next s') : StepOutcome s o
  /-- A CHECK found another STATUS (30 R62; log 16). -/
  | checkFails (mask value : Word) (rest : List HostAction) (checks : s.host = .check mask value :: rest)
      (differs : s.status &&& mask ≠ value) : StepOutcome s (.fault (.checkFailed mask value s.status))
  /-- The running command has no primitive at its position (log 12). -/
  | pastEnd (c : Latched) (k : Nat) (b : Byte) (phase : s.phase = .busy c k b) (outside : (body c).length ≤ k) :
      StepOutcome s (.refused .positionPastEnd)
  /-- The host broke a duty (60 R108). -/
  | undutiful (a : HostAction) (r : Refusal) (acts : s.host.head? = some a) (breach : a.dutiful s = false) :
      StepOutcome s (.refused r)

theorem advance_of_pastEnd {s : State} {c : Latched} {k : Nat} {b : Byte} (phase : s.phase = .busy c k b)
    (outside : (body c).length ≤ k) : advance s = .refused .positionPastEnd := by
  simp [advance, phase, List.getElem?_eq_none outside]

/-- The block's move stops at a position past the end of a body, and for no other reason. -/
theorem blockStep_outcome (s : State) (h : List HostAction) : StepOutcome s (blockStep { s with host := h }) := by
  cases busy : s.busy with
  | false => exact .goesOn (blockStep_goes_on_of_idle busy)
  | true =>
    obtain ⟨c, k, b, phase⟩ := (busy_iff s).1 busy
    have moves : blockStep { s with host := h } = advance { s with host := h } := if_pos busy
    rw [moves]
    by_cases inside : k < (body c).length
    · exact .goesOn ⟨_, advance_busy (s := { s with host := h }) phase (List.getElem?_eq_getElem inside)⟩
    · rw [advance_of_pastEnd (s := { s with host := h }) phase (Nat.le_of_not_lt inside)]
      exact .pastEnd c k b phase (Nat.le_of_not_lt inside)

/-- An action of the outside world, not held back by a held write, goes on unless it is a CHECK that fails or
breaks a duty; a host that lets the block move ends as the block does. -/
theorem hostStep_outcome {s : State} {a : HostAction} {rest : List HostAction} (host : s.host = a :: rest)
    (acts : s.held = none ∨ a.ignoresStall = true) : StepOutcome s (hostStep a rest s) := by
  have head : s.host.head? = some a := by simp [host]
  cases a with
  | tick => exact blockStep_outcome s rest
  | readReg n width =>
    by_cases duty : n < 3 ∧ width = 32
    · obtain ⟨exists_n, rfl⟩ := duty
      exact .goesOn (readReg_goes_on _ exists_n)
    · obtain ⟨r, refuses⟩ := readReg_refuses (n := n) (width := width) { s with host := rest } (by omega)
      simp only [hostStep, refuses]
      exact .undutiful _ r head (by simpa [HostAction.dutiful] using duty)
  | writeReg n width w buf =>
    have free : s.held = none := acts.resolve_right nofun
    by_cases duty : n < 3 ∧ width = 32
    · obtain ⟨exists_n, rfl⟩ := duty
      exact .goesOn (writeReg_goes_on w buf exists_n free)
    · obtain ⟨r, refuses⟩ := writeReg_refuses (n := n) (width := width) w buf { s with host := rest } (by omega)
      simp only [hostStep, refuses]
      exact .undutiful _ r head (by simpa [HostAction.dutiful] using duty)
  | readBuffer i => exact .goesOn (readBuffer_goes_on i _)
  | writeBuffer i v =>
    cases owned : s.owned i with
    | false => exact .goesOn (writeBuffer_goes_on (s := { s with host := rest }) v owned)
    | true =>
      have refuses := writeBuffer_of_owned (s := { s with host := rest }) (v := v) owned
      simp only [hostStep, refuses]
      exact .undutiful _ _ head (by simp [HostAction.dutiful, owned])
  | waitIdle =>
    cases busy : s.busy with
    | false => exact .goesOn ⟨_, waitIdle_of_idle busy⟩
    | true =>
      simp only [hostStep, waitIdle_of_busy busy]
      exact blockStep_outcome s s.host
  | check mask value =>
    by_cases agrees : s.status &&& mask = value
    · exact .goesOn ⟨_, checkStatus_of_agrees (s := { s with host := rest }) agrees⟩
    · have stops := checkStatus_of_differs (s := { s with host := rest }) agrees
      simp only [hostStep, stops]
      exact .checkFails mask value rest host agrees
  | driveLine l v => exact .undutiful _ _ head rfl
  | assertReset => exact .goesOn ⟨_, rfl⟩

/-- Every step ends in one of the ways of `StepOutcome`. -/
theorem step_outcome (s : State) : StepOutcome s (step s) := by
  cases host : s.host with
  | nil =>
    rw [step_of_host_nil host]
    exact blockStep_outcome s s.host
  | cons a rest =>
    cases stall : a.ignoresStall with
    | true =>
      rw [step_of_ignoresStall host stall]
      exact hostStep_outcome host (.inr stall)
    | false =>
      cases held : s.held with
      | none =>
        rw [step_of_host_cons host held]
        exact hostStep_outcome host (.inl held)
      | some hw =>
        rw [step_of_stalled host (by simp [held]) stall]
        exact blockStep_outcome s s.host

/-- Settles O46: of the ways in which a step can end, a failed CHECK alone is a fault. -/
theorem onlyAFailedCheckFaults : Obligations.OnlyAFailedCheckFaults := by
  intro s f faults
  have outcome := step_outcome s
  rw [faults] at outcome
  cases outcome with
  | goesOn next => obtain ⟨_, next⟩ := next; cases next
  | checkFails mask value rest checks differs => exact ⟨mask, value, rest, checks, differs⟩

/-- Settles O47: the invariant keeps the position inside the body, and the host's duties exclude the other
refusals. -/
theorem dutifulHostIsNeverRefused : Obligations.DutifulHostIsNeverRefused := by
  rintro s ⟨-, -, safe, -⟩ dutiful r refuses
  have outcome := step_outcome s
  rw [refuses] at outcome
  cases outcome with
  | goesOn next => obtain ⟨_, next⟩ := next; cases next
  | pastEnd c k b phase outside =>
    obtain ⟨inside, -, -⟩ := (phaseSafe_iff_of_busy phase).1 safe
    omega
  | undutiful a _ acts breach => simp [dutiful a acts] at breach

end Sys2Proof.Machine
end

section
/-! PROOFS. Reset (70 R109): one step from any state, whatever is running or held. -/

namespace Sys2Proof.Machine

/-- What reset says by the block's fields that it clears, said by those of the model that it keeps: nothing of
the block itself outlives it. -/
theorem resetBlock_eq_reset_with (s : State) :
    resetBlock s = { State.reset with
      memory := s.memory, trace := s.trace, host := s.host, diInput := s.diInput, draws := s.draws,
      answer := s.answer, binding := s.binding, prior := s.prior, peeks := s.peeks } :=
  rfl

/-- Settles O49: reset happens although the host is stalled, and leaves the block as `State.reset` has it. -/
theorem resetWinsFromAnyState : Obligations.ResetWinsFromAnyState := by
  intro s rest resets
  rw [step_of_assertReset resets, resetBlock_eq_reset_with]

end Sys2Proof.Machine
end
